-- ==== Sys2Proof/Word.lean ====
section
/-! DEFINITION. The word types of the machine (00_scope.md R5, R6, R12): the 16-bit word, the 15-bit value, the byte of
an image. Everything is unsigned. -/

namespace Sys2Proof

/-- A byte of an image (70_reset_and_hazards.md R261). -/
abbrev Byte := BitVec 8

/-- A memory cell, an instruction word, a stack cell: CELL_BITS = 16 (R5). -/
abbrev Word := BitVec 16

/-- A value: a register's content, a literal, an address, a character code; VALUE_BITS = 15 (R5, R12). -/
abbrev Value := BitVec 15

/-- `zext_16(v)`, the machine's only extension (R7). -/
abbrev Value.toWord (v : Value) : Word := v.setWidth 16

end Sys2Proof
end

