-- ==== Sys2Proof/Config.lean ====
section
/-! DEFINITION. The fixed parameters of the block (00_scope.md R5). The open parameter CYCLE_CEILING is a field of State
(log 3). -/

namespace Sys2Proof.Config

/-- MODULUS: every register value is reduced modulo this. -/
@[simp] abbrev modulus : Nat := 32768

/-- MEM_WORDS: the number of cells, addresses 0 to 32767. -/
@[simp] abbrev memWords : Nat := 32768

/-- NREGS. -/
@[simp] abbrev nregs : Nat := 8

/-- REG_BASE: the operand word that names register 0. -/
@[simp] abbrev regBase : Nat := 32768

/-- REG_TOP: the operand word that names register 7, the largest legal operand word. -/
@[simp] abbrev regTop : Nat := 32775

/-- NOPCODES: opcode words 0 to 21 are instructions. -/
@[simp] abbrev nopcodes : Nat := 22

/-- HALT_WORD. -/
@[simp] abbrev haltWord : Word := 0#16

/-- NOOP_WORD, which pads the image. PRESUMED: the spec's decision D1 and general knowledge G1; unsafe (log 10). -/
@[simp] abbrev noopWord : Word := 21#16

/-- START_PC (decision D3; log 13). -/
@[simp] abbrev startPc : Word := 0#16

/-- NEWLINE, the code the input adapter appends to every line. PRESUMED: decision D16 and general knowledge G2; unsafe
(log 11). -/
@[simp] abbrev newline : Value := 10#15

/-- STACK_CAPACITY: "none", the stack is unbounded (R5, 10_state.md R28). Unsafe for a finite implementation (log 7). -/
def stackCapacity : Option Nat := none

end Sys2Proof.Config
end

