-- ==== Sys2Proof/Syntax.lean ====
section
/-! DEFINITION. The whole instruction set as syntax: the eight registers, the three classes of operand word
(30_encoding.md R83) and one constructor per row of the opcode map (R86). -/

namespace Sys2Proof

/-- The eight general registers; register i is named by the operand word 32768 + i (10_state.md R21). -/
inductive Reg where
  | r0 | r1 | r2 | r3 | r4 | r5 | r6 | r7
  deriving DecidableEq, Repr

/-- An operand word by its class (30_encoding.md R83). The class `invalid` is carried as data because classification
faults only after every operand word is fetched (40_execute_loop.md R114, R115; log 9). -/
inductive Operand where
  /-- a word in [0, 32767]: its own value -/
  | lit (v : Value)
  /-- a word in [32768, 32775]: register word - 32768 -/
  | reg (r : Reg)
  /-- a word in [32776, 65535]: never legal as an operand -/
  | invalid (w : Word)
  deriving DecidableEq, Repr

/-- The 22 instructions in the order of the opcode map (30_encoding.md R86). `inp` is the row "in", a reserved word of
Lean. -/
inductive Instr where
  | halt
  | set (a b : Operand)
  | push (a : Operand)
  | pop (a : Operand)
  | eq (a b c : Operand)
  | gt (a b c : Operand)
  | jmp (a : Operand)
  | jt (a b : Operand)
  | jf (a b : Operand)
  | add (a b c : Operand)
  | mult (a b c : Operand)
  | mod (a b c : Operand)
  | and (a b c : Operand)
  | or (a b c : Operand)
  | not (a b : Operand)
  | rmem (a b : Operand)
  | wmem (a b : Operand)
  | call (a : Operand)
  | ret
  | out (a : Operand)
  | inp (a : Operand)
  | noop
  deriving DecidableEq, Repr

end Sys2Proof
end

