-- ==== Sys2Proof/WellFormed.lean ====
section
/-! DEFINITION. The role of every operand of every opcode (30_encoding.md R84, R85) and the check that an instruction's
operands fit their roles (R88, R89). -/

namespace Sys2Proof

/-- The two operand roles (R84). -/
inductive Role where
  /-- D: names the register to write; only a register reference is legal -/
  | dest
  /-- V: read through `val`; a literal or a register reference is legal -/
  | value
  deriving DecidableEq, Repr

/-- Whether an operand word's class is legal for a role (R84, R88, R89). -/
def Role.accepts : Role → Operand → Bool
  | .dest, .reg _ => true
  | .dest, .lit _ => false
  | .dest, .invalid _ => false
  | .value, .lit _ => true
  | .value, .reg _ => true
  | .value, .invalid _ => false

/-- The operands of an instruction in the order a, b, c, each with its role: the table of R85. -/
def Instr.operands : Instr → List (Role × Operand)
  | .halt => []
  | .set a b => [(.dest, a), (.value, b)]
  | .push a => [(.value, a)]
  | .pop a => [(.dest, a)]
  | .eq a b c => [(.dest, a), (.value, b), (.value, c)]
  | .gt a b c => [(.dest, a), (.value, b), (.value, c)]
  | .jmp a => [(.value, a)]
  | .jt a b => [(.value, a), (.value, b)]
  | .jf a b => [(.value, a), (.value, b)]
  | .add a b c => [(.dest, a), (.value, b), (.value, c)]
  | .mult a b c => [(.dest, a), (.value, b), (.value, c)]
  | .mod a b c => [(.dest, a), (.value, b), (.value, c)]
  | .and a b c => [(.dest, a), (.value, b), (.value, c)]
  | .or a b c => [(.dest, a), (.value, b), (.value, c)]
  | .not a b => [(.dest, a), (.value, b)]
  | .rmem a b => [(.dest, a), (.value, b)]
  | .wmem a b => [(.value, a), (.value, b)]
  | .call a => [(.value, a)]
  | .ret => []
  | .out a => [(.value, a)]
  | .inp a => [(.dest, a)]
  | .noop => []

/-- The instruction's operand count n (R81); it occupies 1 + n words. -/
def Instr.opcount (i : Instr) : Nat := i.operands.length

/-- Every operand is legal for its role (R88, R89): what phase 5 of a step lets through (40_execute_loop.md R115). -/
def Instr.wellFormed (i : Instr) : Bool := i.operands.all fun p => p.1.accepts p.2

/-- The register a well-formed instruction writes, if it writes one: the register its destination operand names, which is
always operand a (10_state.md R24). -/
def Instr.destReg (i : Instr) : Option Reg :=
  match i.operands with
  | (.dest, .reg r) :: _ => some r
  | _ => none

end Sys2Proof
end

