-- ==== Sys2Proof/Decode.lean ====
section
/-! DEFINITION. Operand words, the decoder (total on any words and any bytes, rejecting by name) and the encoder, from
30_encoding.md R80 to R94. -/

namespace Sys2Proof

/-- The register with index n modulo 8 (10_state.md R23). -/
def Reg.ofIndex (n : Nat) : Reg :=
  match n % 8 with
  | 0 => .r0
  | 1 => .r1
  | 2 => .r2
  | 3 => .r3
  | 4 => .r4
  | 5 => .r5
  | 6 => .r6
  | _ => .r7

/-- The index of a register, 0 to 7. -/
def Reg.index : Reg → Nat
  | .r0 => 0
  | .r1 => 1
  | .r2 => 2
  | .r3 => 3
  | .r4 => 4
  | .r5 => 5
  | .r6 => 6
  | .r7 => 7

/-- `classify(word)` (30_encoding.md R83). For a register reference the index modulo 8 is word - 32768 (10_state.md R23). -/
def classify (w : Word) : Operand :=
  if w.toNat < Config.regBase then .lit (w.setWidth 15)
  else if w.toNat ≤ Config.regTop then .reg (Reg.ofIndex w.toNat)
  else .invalid w

/-- The 16-bit word of an operand (30_encoding.md R83). -/
def Operand.word : Operand → Word
  | .lit v => v.toWord
  | .reg r => BitVec.ofNat 16 (Config.regBase + r.index)
  | .invalid w => w

/-- Why a sequence of words holds no instruction. -/
inductive DecodeError where
  /-- there is no opcode word -/
  | noOpcode
  /-- the opcode word is in [22, 65535] (R87) -/
  | unknownOpcode (w : Word)
  /-- the words end before operand word k (k = 1, 2 or 3) -/
  | missingOperand (k : Nat)
  deriving DecidableEq, Repr

/-- Format F1: one operand word after the opcode word (R81). -/
def decodeF1 (mk : Operand → Instr) : List Word → Except DecodeError Instr
  | a :: _ => .ok (mk (classify a))
  | [] => .error (.missingOperand 1)

/-- Format F2: two operand words (R81). -/
def decodeF2 (mk : Operand → Operand → Instr) : List Word → Except DecodeError Instr
  | a :: b :: _ => .ok (mk (classify a) (classify b))
  | [_] => .error (.missingOperand 2)
  | [] => .error (.missingOperand 1)

/-- Format F3: three operand words (R81). -/
def decodeF3 (mk : Operand → Operand → Operand → Instr) : List Word → Except DecodeError Instr
  | a :: b :: c :: _ => .ok (mk (classify a) (classify b) (classify c))
  | [_, _] => .error (.missingOperand 3)
  | [_] => .error (.missingOperand 2)
  | [] => .error (.missingOperand 1)

/-- The instruction with opcode word op whose operand words come first in ws: the whole opcode word is the opcode number
(30_encoding.md R82), the operand words follow in the order a, b, c (R80). The opcode map is R86. -/
def decodeOpcode (op : Word) (ws : List Word) : Except DecodeError Instr :=
  match op.toNat with
  | 0 => .ok .halt
  | 1 => decodeF2 .set ws
  | 2 => decodeF1 .push ws
  | 3 => decodeF1 .pop ws
  | 4 => decodeF3 .eq ws
  | 5 => decodeF3 .gt ws
  | 6 => decodeF1 .jmp ws
  | 7 => decodeF2 .jt ws
  | 8 => decodeF2 .jf ws
  | 9 => decodeF3 .add ws
  | 10 => decodeF3 .mult ws
  | 11 => decodeF3 .mod ws
  | 12 => decodeF3 .and ws
  | 13 => decodeF3 .or ws
  | 14 => decodeF2 .not ws
  | 15 => decodeF2 .rmem ws
  | 16 => decodeF2 .wmem ws
  | 17 => decodeF1 .call ws
  | 18 => .ok .ret
  | 19 => decodeF1 .out ws
  | 20 => decodeF1 .inp ws
  | 21 => .ok .noop
  | _ => .error (.unknownOpcode op)

/-- The instruction at the head of a sequence of words (30_encoding.md R80). -/
def decodeWords : List Word → Except DecodeError Instr
  | [] => .error .noOpcode
  | op :: ws => decodeOpcode op ws

/-- The words of a byte sequence, low byte first: word i is byte[2i] + 256 * byte[2i+1] (70_reset_and_hazards.md R261).
An odd last byte makes no word. -/
def wordsOfBytes : List Byte → List Word
  | lo :: hi :: rest => (hi ++ lo) :: wordsOfBytes rest
  | [_] => []
  | [] => []

/-- The instruction at the head of a byte sequence laid out as in an image (30_encoding.md R94). -/
def decode (bytes : List Byte) : Except DecodeError Instr := decodeWords (wordsOfBytes bytes)

/-- The opcode word of an instruction (30_encoding.md R86). PRESUMED beyond halt = 0: the numbering is the spec's
decision D1; unsafe (log 10). -/
def Instr.opcode : Instr → Word
  | .halt => 0
  | .set _ _ => 1
  | .push _ => 2
  | .pop _ => 3
  | .eq _ _ _ => 4
  | .gt _ _ _ => 5
  | .jmp _ => 6
  | .jt _ _ => 7
  | .jf _ _ => 8
  | .add _ _ _ => 9
  | .mult _ _ _ => 10
  | .mod _ _ _ => 11
  | .and _ _ _ => 12
  | .or _ _ _ => 13
  | .not _ _ => 14
  | .rmem _ _ => 15
  | .wmem _ _ => 16
  | .call _ => 17
  | .ret => 18
  | .out _ => 19
  | .inp _ => 20
  | .noop => 21

/-- The words of an instruction: the opcode word, then one word per operand (30_encoding.md R80, R81). -/
def encode (i : Instr) : List Word := i.opcode :: i.operands.map fun p => p.2.word

/-- The bytes of a word sequence, low byte first (30_encoding.md R94, 20_memory.md R53). -/
def bytesOfWords : List Word → List Byte
  | [] => []
  | w :: ws => w.setWidth 8 :: (w >>> 8).setWidth 8 :: bytesOfWords ws

/-- The bytes of an instruction in an image (30_encoding.md R94). -/
def encodeBytes (i : Instr) : List Byte := bytesOfWords (encode i)

/-- The four words, the longest instruction, of an opcode-table word: bits 16k+15 to 16k of w are word k, and every bit
from nbits on is 0. -/
def tableWords (nbits w : Nat) : List Word :=
  let bits := w % 2 ^ nbits
  [BitVec.ofNat 16 bits, BitVec.ofNat 16 (bits / 2 ^ 16), BitVec.ofNat 16 (bits / 2 ^ 32),
    BitVec.ofNat 16 (bits / 2 ^ 48)]

/-- The instruction the decoder reads from an opcode-table word laid out in memory as the machine stores it. -/
def decodeTableWord (nbits w : Nat) : Option Instr :=
  match decode (bytesOfWords (tableWords nbits w)) with
  | .ok i => some i
  | .error _ => none

end Sys2Proof
end

