-- ==== Sys2Proof/Machine/State.lean ====
section
/-! DEFINITION. The state of the machine as plain data: the nine items of 10_state.md R20 and the model's two own fields
(`ceiling`, `hostLines`), the stop and fault records, and the state after reset (R36). -/

namespace Sys2Proof.Machine

/-- The register file: eight 15-bit registers (10_state.md R21, R22). -/
structure Regs where
  r0 : Value
  r1 : Value
  r2 : Value
  r3 : Value
  r4 : Value
  r5 : Value
  r6 : Value
  r7 : Value
  deriving DecidableEq, Repr

/-- Memory, 32768 cells of 16 bits (10_state.md R27). DESIGN CHOICE: held as the bytes of the image of all of memory,
cell A's low byte at 2A and its high byte at 2A + 1 (30_encoding.md R94); safe (log 1). The canonical form is
`Memory.wf`. -/
abbrev Memory := List Host.Cell

/-- The two normal ends of a run (10_state.md R31). -/
inductive HaltReason where
  | byHalt
  | byRetEmpty
  deriving DecidableEq, Repr

/-- Why the loader refuses an image (70_reset_and_hazards.md R263). -/
inductive ImageError where
  | oddLength
  | tooLong
  /-- both apply: an odd image longer than 65536 bytes -/
  | oddLengthAndTooLong
  deriving DecidableEq, Repr

/-- The run status (10_state.md R31). `loadFailed` carries the reason that 60_exceptions.md R221 says InvalidImageError
records (log 8). -/
inductive Status where
  | running
  | halted (why : HaltReason)
  | watchdogStop
  | faulted
  | loadFailed (why : ImageError)
  deriving DecidableEq, Repr

/-- The numeric status codes (10_state.md R31). -/
def Status.code : Status → Nat
  | .running => 0
  | .halted .byHalt => 1
  | .halted .byRetEmpty => 2
  | .watchdogStop => 3
  | .faulted => 4
  | .loadFailed _ => 5

/-- The fault kinds (60_exceptions.md R221). -/
inductive FaultKind where
  | addressOutOfRange
  | unknownOpcode
  | invalidOperand
  | invalidDestination
  | stackUnderflow
  | modByZero
  /-- only in a model that sets STACK_CAPACITY (R229) -/
  | stackOverflow
  /-- the loader's, before the run; shown by `Status.loadFailed` (R228) -/
  | invalidImageError
  deriving DecidableEq, Repr

/-- The numeric fault codes (60_exceptions.md R221). -/
def FaultKind.code : FaultKind → Nat
  | .addressOutOfRange => 1
  | .unknownOpcode => 2
  | .invalidOperand => 3
  | .invalidDestination => 4
  | .stackUnderflow => 5
  | .modByZero => 6
  | .stackOverflow => 7
  | .invalidImageError => 8

/-- The kind the loader reports for every refused image (60_exceptions.md R228). -/
def ImageError.kind : ImageError → FaultKind
  | .oddLength => .invalidImageError
  | .tooLong => .invalidImageError
  | .oddLengthAndTooLong => .invalidImageError

/-- What a fault records beside its kind and place, the column "info recorded" of 60_exceptions.md R221. -/
inductive FaultInfo where
  | nothing
  /-- the address that was out of range -/
  | address (a : Nat)
  /-- the unknown opcode word -/
  | word (w : Word)
  /-- the operand position (1, 2 or 3) and the operand word -/
  | operand (k : Nat) (w : Word)
  deriving DecidableEq, Repr

/-- The fault record (10_state.md R33): `at` of the spec is `pc` here, the pc of the faulting instruction. -/
structure FaultRecord where
  kind : FaultKind
  pc : Word
  info : FaultInfo
  deriving DecidableEq, Repr

/-- The state of the machine (10_state.md R20). -/
structure State where
  /-- x[0..7] (R21) -/
  regs : Regs
  /-- the instruction pointer (R25) -/
  pc : Word
  /-- mem[0..32767] (R27) -/
  mem : Memory
  /-- the stack, top first (R28) -/
  stack : List Word
  /-- the input character queue, next character first (R29) -/
  inq : List Value
  /-- the output stream, in execution order (R30) -/
  outs : List Value
  /-- the run status (R31) -/
  status : Status
  /-- the count of completed instructions (R32) -/
  cycles : Nat
  /-- the fault record, present when faulted (R33) -/
  fault : Option FaultRecord
  /-- the parameter CYCLE_CEILING, the model's own field (R5; log 3) -/
  ceiling : Option Nat
  /-- the lines the host has ready, oldest first, each without its terminator, the model's own field (48_io.md R213;
  log 4) -/
  hostLines : List (List Value)
  deriving DecidableEq, Repr

/-- Why the model's step answers no next state. A fault of the SPEC is a next state (60_exceptions.md R234; log 6). -/
inductive Fault where
  /-- raised by `step` alone, when `status` is not Running: the machine has no step from there (10_state.md R31). Safe:
  no claim about a next state can be made of it. -/
  | notRunning
  /-- the stuck state of 40_execute_loop.md R121, raised by `in` alone, with nothing queued and no line ready: no step is
  enabled, the machine stays as it is, Running, and once the host has a line (`State.supplyLine`) its step exists again.
  Not an error and not an end of the run. Safe: no claim about a next state can be made of it (log 5). -/
  | stalled
  deriving DecidableEq, Repr

/-- Why an instruction has no meaning in the model. No instruction is refused. -/
inductive Refusal where
  /-- raised by an arm of `exec` for an instruction without a meaning; no arm does. Safe. -/
  | notModelled (mnemonic : String)
  deriving DecidableEq, Repr

/-- The outcome of one step or one instruction. -/
abbrev Result := Host.Outcome State Fault Refusal

/-- The machine right after reset with the empty image (10_state.md R36, 70_reset_and_hazards.md R262): every cell holds
NOOP_WORD, which is what memory with nothing listed reads as. DESIGN CHOICES: the image is empty (log 2), `ceiling` is
none (log 3), `hostLines` is empty (log 4). -/
def State.reset : State where
  regs := ⟨0, 0, 0, 0, 0, 0, 0, 0⟩
  pc := Config.startPc
  mem := []
  stack := []
  inq := []
  outs := []
  status := .running
  cycles := 0
  fault := none
  ceiling := none
  hostLines := []

end Sys2Proof.Machine
end

