-- ==== Sys2Proof/Machine/Memory.lean ====
section
/-! DEFINITION. Memory as a canonical list of (byte address, byte) pairs, and the word access the machine makes
(20_memory.md R50 to R53). Word address A is the bytes 2A (low) and 2A + 1 (high). -/

namespace Sys2Proof.Machine

/-- What a byte that is not listed reads as: the padding word 21 of 70_reset_and_hazards.md R262, low byte first. -/
def Memory.unlisted (p : Nat) : Byte := if p % 2 = 0 then Config.noopWord.setWidth 8 else (Config.noopWord >>> 8).setWidth 8

/-- The byte at byte address p. -/
def Memory.readByte (p : Nat) : Memory → Byte
  | [] => Memory.unlisted p
  | (q, b) :: m => if q = p then b else Memory.readByte p m

/-- Store a byte, keeping the canonical form. -/
def Memory.writeByte (p : Nat) (b : Byte) : Memory → Memory
  | [] => if b = Memory.unlisted p then [] else [(p, b)]
  | (q, c) :: m =>
    if p < q then (if b = Memory.unlisted p then (q, c) :: m else (p, b) :: (q, c) :: m)
    else if p = q then (if b = Memory.unlisted p then m else (p, b) :: m)
    else (q, c) :: Memory.writeByte p b m

/-- Addresses rise strictly from `lo` on, exist, and no listed byte is what an unlisted one reads as. -/
def Memory.wfFrom (lo : Nat) : Memory → Bool
  | [] => true
  | (q, b) :: m =>
    decide (lo ≤ q) && decide (q < 2 * Config.memWords) && decide (b ≠ Memory.unlisted q) && Memory.wfFrom (q + 1) m

/-- The canonical form of memory: two memories in this form that read alike are the same list. -/
def Memory.wf (m : Memory) : Bool := Memory.wfFrom 0 m

/-- The 16-bit cell at word address a. -/
def Memory.readWord (m : Memory) (a : Nat) : Word := m.readByte (2 * a + 1) ++ m.readByte (2 * a)

/-- Store a 16-bit word in the cell at word address a. -/
def Memory.writeWord (m : Memory) (a : Nat) (w : Word) : Memory :=
  (m.writeByte (2 * a) (w.setWidth 8)).writeByte (2 * a + 1) ((w >>> 8).setWidth 8)

/-- Store words at consecutive word addresses from a on, as far as cells exist. -/
def Memory.writeWords (m : Memory) (a : Nat) : List Word → Memory
  | [] => m
  | w :: ws => if a < Config.memWords then (m.writeWord a w).writeWords (a + 1) ws else m

/-- `MemRead(addr, 1)` (20_memory.md R51): none where the spec raises AddressOutOfRange. -/
def Memory.read (m : Memory) (addr : Nat) : Option Word :=
  if addr < Config.memWords then some (m.readWord addr) else none

/-- `MemWrite(addr, 1, v)` (20_memory.md R52): address and value are values, so its precondition always holds. -/
def Memory.write (m : Memory) (addr v : Value) : Memory := m.writeWord addr.toNat v.toWord

end Sys2Proof.Machine
end

