-- ==== Sys2Proof/Machine/Ops.lean ====
section
/-! DEFINITION. The named operations every instruction is made of: the register file, the pc, the stack, the terminal
adapter, and how a step ends (complete, stop, fault, stall). There is no return from a fault (60_exceptions.md R235). -/

namespace Sys2Proof.Machine

/-- `norm(v)` = v mod 32768 (00_scope.md R7). -/
def norm15 (n : Nat) : Value := BitVec.ofNat 15 n

/-- Read one register of the file. -/
def Regs.get (rs : Regs) : Reg → Value
  | .r0 => rs.r0
  | .r1 => rs.r1
  | .r2 => rs.r2
  | .r3 => rs.r3
  | .r4 => rs.r4
  | .r5 => rs.r5
  | .r6 => rs.r6
  | .r7 => rs.r7

/-- Replace one register of the file. -/
def Regs.set (rs : Regs) (r : Reg) (v : Value) : Regs :=
  match r with
  | .r0 => { rs with r0 := v }
  | .r1 => { rs with r1 := v }
  | .r2 => { rs with r2 := v }
  | .r3 => { rs with r3 := v }
  | .r4 => { rs with r4 := v }
  | .r5 => { rs with r5 := v }
  | .r6 => { rs with r6 := v }
  | .r7 => { rs with r7 := v }

/-- `x[i]` (00_scope.md R7). -/
def State.reg (s : State) (r : Reg) : Value := s.regs.get r

/-- `x[i] <- n` stores norm(n) for every natural n (10_state.md R22). -/
def State.setReg (s : State) (r : Reg) (n : Nat) : State := { s with regs := s.regs.set r (norm15 n) }

/-- `pc <- target` (00_scope.md R7). -/
def State.jump (s : State) (target : Word) : State := { s with pc := target }

/-- `pc <- pc + 1 + n` for an instruction with n operand words (10_state.md R26; log 16). -/
def State.advance (s : State) (n : Nat) : State := s.jump (s.pc + BitVec.ofNat 16 (1 + n))

/-- `MemWrite` (20_memory.md R52). -/
def State.memWrite (s : State) (addr v : Value) : State := { s with mem := s.mem.write addr v }

/-- Append a character code to the output stream (48_io.md R210). -/
def State.emit (s : State) (ch : Value) : State := { s with outs := s.outs ++ [ch] }

/-- The fault entry (60_exceptions.md R234): status, and the record of kind, pc and info; nothing else. -/
def State.raise (s : State) (kind : FaultKind) (info : FaultInfo) : State :=
  { s with status := .faulted, fault := some ⟨kind, s.pc, info⟩ }

/-- The run ends with `fault(kind, pc, info)`: the one operation by which every fault is taken (40_execute_loop.md R123,
60_exceptions.md R234; a next state, log 6). -/
def raise (kind : FaultKind) (info : FaultInfo) (s : State) : Result := .next (s.raise kind info)

/-- Count one completed instruction (10_state.md R32, 40_execute_loop.md R120). -/
def State.count (s : State) : State := { s with cycles := s.cycles + 1 }

/-- The instruction completed with the state s (40_execute_loop.md R120, R123). -/
def complete (s : State) : Result := .next s.count

/-- `stop Halted(reason)`: the run ends normally, the instruction is counted, pc stays (40_execute_loop.md R120, R123;
10_state.md R26). -/
def stop (why : HaltReason) (s : State) : Result := .next { s.count with status := .halted why }

/-- `stall`: no step is enabled, so nothing changes; the step is tried again from the same state when the host has a line
(40_execute_loop.md R121; the outcome is the model's stuck state `stalled`, log 5). -/
def stall : Result := .fault .stalled

/-- Whether the watchdog test of 40_execute_loop.md R111 stops the run. -/
def State.watchdogDue (s : State) : Bool :=
  match s.ceiling with
  | none => false
  | some n => decide (n ≤ s.cycles)

/-- `stop WatchdogStop`: nothing but the status changes (40_execute_loop.md R111). -/
def State.watchdogStop (s : State) : State := { s with status := .watchdogStop }

/-- Whether a stack of the given capacity has no room (60_exceptions.md R229). -/
def State.stackFull (s : State) : Option Nat → Bool
  | none => false
  | some n => decide (n ≤ s.stack.length)

/-- `push(w)` with a capacity (10_state.md R28): no room raises StackOverflow and pushes nothing (60_exceptions.md R229);
with capacity none it never fails. -/
def withPush (capacity : Option Nat) (w : Word) (s : State) (k : State → Result) : Result :=
  if s.stackFull capacity then raise .stackOverflow .nothing s else k { s with stack := w :: s.stack }

/-- `pop()` (10_state.md R28): the top word and the state without it; none on an empty stack, which each caller treats in
its own way (90_conflicts.md C6). -/
def State.popWord (s : State) : Option (Word × State) :=
  match s.stack with
  | [] => none
  | w :: rest => some (w, { s with stack := rest })

/-- The refill of the input queue: one line of the host, then NEWLINE (48_io.md R213). None when the host has no line
ready. -/
def State.refill (s : State) : Option State :=
  match s.hostLines with
  | [] => none
  | line :: rest => some { s with inq := line ++ [Config.newline], hostLines := rest }

/-- The next input character and the state without it, after a refill if the queue is empty; none when the step must
stall (48_io.md R211). -/
def State.nextChar (s : State) : Option (Value × State) :=
  match s.inq with
  | ch :: rest => some (ch, { s with inq := rest })
  | [] =>
    match s.refill with
    | none => none
    | some s' =>
      match s'.inq with
      | ch :: rest => some (ch, { s' with inq := rest })
      | [] => none

/-- The host's one move during a run: it has one more line ready (70_reset_and_hazards.md R271, 48_io.md R213; log 4). -/
def State.supplyLine (s : State) (line : List Value) : State := { s with hostLines := s.hostLines ++ [line] }

end Sys2Proof.Machine
end

