-- ==== Sys2Proof/Machine/Operands.lean ====
section
/-! DEFINITION. The operand resolver and the classification of operands by role: phase 5 and `val`, `dst` of
40_execute_loop.md R115 to R117. -/

namespace Sys2Proof.Machine

/-- `val(w)` (40_execute_loop.md R116): a literal is itself, a register reference its register's content; none for an
invalid word. -/
def State.val (s : State) : Operand → Option Value
  | .lit v => some v
  | .reg r => some (s.reg r)
  | .invalid _ => none

/-- `dst(w)` (40_execute_loop.md R117): the register named; none for a literal or an invalid word. -/
def Operand.dst : Operand → Option Reg
  | .reg r => some r
  | .lit _ => none
  | .invalid _ => none

/-- Classify operand k as a value operand and go on with its value (40_execute_loop.md R115). -/
def withVal (k : Nat) (w : Operand) (s : State) (f : Value → Result) : Result :=
  match w with
  | .lit v => f v
  | .reg r => f (s.reg r)
  | .invalid x => raise .invalidOperand (.operand k x) s

/-- Classify operand k as a destination operand and go on with its register (40_execute_loop.md R115). -/
def withDst (k : Nat) (w : Operand) (s : State) (f : Reg → Result) : Result :=
  match w with
  | .reg r => f r
  | .lit v => raise .invalidDestination (.operand k v.toWord) s
  | .invalid x => raise .invalidOperand (.operand k x) s

/-- The shape "D V": operand a a destination, b a value, both classified before the body runs; the body gives the raw
number to write, and pc advances by 1 + 2. -/
def writeD1 (a b : Operand) (s : State) (f : Value → Nat) : Result :=
  withDst 1 a s fun d => withVal 2 b s fun x => complete ((s.setReg d (f x)).advance 2)

/-- The shape "D V V": as `writeD1` with two value operands, pc advances by 1 + 3. -/
def writeD2 (a b c : Operand) (s : State) (f : Value → Value → Nat) : Result :=
  withDst 1 a s fun d => withVal 2 b s fun x => withVal 3 c s fun y => complete ((s.setReg d (f x y)).advance 3)

end Sys2Proof.Machine
end

