-- ==== Sys2Proof/Machine/Arithmetic.lean ====
section
/-! DEFINITION. `add`, `mult`, `mod` (44_arithmetic.md): the exact natural result, reduced by the register write. -/

namespace Sys2Proof.Machine

/-- `add a b c` (R170). -/
def execAdd (a b c : Operand) (s : State) : Result := writeD2 a b c s fun x y => x.toNat + y.toNat

/-- `mult a b c` (R171). -/
def execMult (a b c : Operand) (s : State) : Result := writeD2 a b c s fun x y => x.toNat * y.toNat

/-- `mod a b c` (R172, R175): a zero divisor raises ModByZero and writes nothing. -/
def execMod (a b c : Operand) (s : State) : Result :=
  withDst 1 a s fun d => withVal 2 b s fun x => withVal 3 c s fun y =>
    if y = 0 then raise .modByZero .nothing s else complete ((s.setReg d (x.toNat % y.toNat)).advance 3)

end Sys2Proof.Machine
end

