-- ==== Sys2Proof/Machine/Bitwise.lean ====
section
/-! DEFINITION. `and`, `or`, `not` (45_bitwise.md): bit by bit on the 15 bits of each value (R183). -/

namespace Sys2Proof.Machine

/-- `and a b c` (R180). -/
def execAnd (a b c : Operand) (s : State) : Result := writeD2 a b c s fun x y => (x &&& y).toNat

/-- `or a b c` (R181). -/
def execOr (a b c : Operand) (s : State) : Result := writeD2 a b c s fun x y => (x ||| y).toNat

/-- `not a b` (R182): (NOT x) AND 0x7FFF, the complement in a 16-bit container masked to 15 bits. -/
def execNot (a b : Operand) (s : State) : Result := writeD1 a b s fun x => ((~~~x.toWord) &&& 0x7FFF#16).toNat

end Sys2Proof.Machine
end

