-- ==== Sys2Proof/Machine/CharIO.lean ====
section
/-! DEFINITION. `out`, `in` (48_io.md). -/

namespace Sys2Proof.Machine

/-- `out a` (R210): never waits, never fails (log 14). -/
def execOut (a : Operand) (s : State) : Result := withVal 1 a s fun ch => complete ((s.emit ch).advance 1)

/-- `in a` (R211): the operand is classified before any character is taken or waited for. -/
def execIn (a : Operand) (s : State) : Result :=
  withDst 1 a s fun d =>
    match s.nextChar with
    | none => stall
    | some (ch, s') => complete ((s'.setReg d ch.toNat).advance 1)

end Sys2Proof.Machine
end

