-- ==== Sys2Proof/Machine/Flags.lean ====
section
/-! DEFINITION. The machine has no flags and no condition codes (10_state.md R34): a comparison writes 1 or 0 into a
general register, and a conditional jump tests a value against zero. Both computations stand here. -/

namespace Sys2Proof.Machine

/-- The number a comparison writes (42_compare.md R150, R151). -/
def truth (b : Bool) : Nat := if b then 1 else 0

/-- Equality of two values (R150). -/
def valuesEqual (x y : Value) : Bool := decide (x = y)

/-- The unsigned "greater" of two values (R151). -/
def valueGreater (x y : Value) : Bool := decide (y.toNat < x.toNat)

/-- The condition of a jump: any value but zero is true (43_jumps.md R161, R162). -/
def nonZero (x : Value) : Bool := decide (x ≠ 0)

end Sys2Proof.Machine
end

