-- ==== Sys2Proof/Machine/Compare.lean ====
section
/-! DEFINITION. `eq`, `gt` (42_compare.md). -/

namespace Sys2Proof.Machine

/-- `eq a b c` (R150): the values are compared, not the operand words. -/
def execEq (a b c : Operand) (s : State) : Result := writeD2 a b c s fun x y => truth (valuesEqual x y)

/-- `gt a b c` (R151): unsigned. -/
def execGt (a b c : Operand) (s : State) : Result := writeD2 a b c s fun x y => truth (valueGreater x y)

end Sys2Proof.Machine
end

