-- ==== Sys2Proof/Machine/Control.lean ====
section
/-! DEFINITION. `call`, `ret`, `halt`, `noop` (47_call_ret_halt_noop.md). -/

namespace Sys2Proof.Machine

/-- `call a` (R200): the return address pc + 2 is pushed as it is, without normalisation. -/
def execCall (a : Operand) (s : State) : Result :=
  withVal 1 a s fun t => withPush Config.stackCapacity (s.pc + 2) s fun s' => complete (s'.jump t.toWord)

/-- `ret` (R201): an empty stack is a normal end; the popped word goes to pc unchanged. -/
def execRet (s : State) : Result :=
  match s.popWord with
  | none => stop .byRetEmpty s
  | some (w, s') => complete (s'.jump w)

/-- `halt` (R202). -/
def execHalt (s : State) : Result := stop .byHalt s

/-- `noop` (R203). -/
def execNoop (s : State) : Result := complete (s.advance 0)

end Sys2Proof.Machine
end

