-- ==== Sys2Proof/Machine/Jumps.lean ====
section
/-! DEFINITION. `jmp`, `jt`, `jf` (43_jumps.md). A target is the value of an operand, an absolute word address (R163). -/

namespace Sys2Proof.Machine

/-- `jmp a` (R160). -/
def execJmp (a : Operand) (s : State) : Result := withVal 1 a s fun t => complete (s.jump t.toWord)

/-- `jt a b` (R161): the target operand is classified whether or not the jump is taken. -/
def execJt (a b : Operand) (s : State) : Result :=
  withVal 1 a s fun x => withVal 2 b s fun t => complete (if nonZero x then s.jump t.toWord else s.advance 2)

/-- `jf a b` (R162). -/
def execJf (a b : Operand) (s : State) : Result :=
  withVal 1 a s fun x => withVal 2 b s fun t => complete (if nonZero x then s.advance 2 else s.jump t.toWord)

end Sys2Proof.Machine
end

