-- ==== Sys2Proof/Machine/MemAccess.lean ====
section
/-! DEFINITION. `rmem`, `wmem` (46_memory_access.md): the effective address is the value of one operand (R192). -/

namespace Sys2Proof.Machine

/-- `rmem a b` (R190): the cell's word is data; the register write reduces it. A value is always an address that exists,
so the data read never faults (R192). -/
def execRmem (a b : Operand) (s : State) : Result :=
  withDst 1 a s fun d => withVal 2 b s fun x =>
    match s.mem.read x.toNat with
    | none => raise .addressOutOfRange (.address x.toNat) s
    | some w => complete ((s.setReg d w.toNat).advance 2)

/-- `wmem a b` (R191): both operands are values; a is the address (90_conflicts.md C8). -/
def execWmem (a b : Operand) (s : State) : Result :=
  withVal 1 a s fun x => withVal 2 b s fun y => complete ((s.memWrite x y).advance 2)

end Sys2Proof.Machine
end

