-- ==== Sys2Proof/Machine/Move.lean ====
section
/-! DEFINITION. `set`, `push`, `pop` (41_move_stack.md). -/

namespace Sys2Proof.Machine

/-- `set a b` (R140). -/
def execSet (a b : Operand) (s : State) : Result := writeD1 a b s fun x => x.toNat

/-- `push a` (R141). -/
def execPush (a : Operand) (s : State) : Result :=
  withVal 1 a s fun v => withPush Config.stackCapacity v.toWord s fun s' => complete (s'.advance 1)

/-- `pop a` (R142): the operand is classified before the stack is looked at. -/
def execPop (a : Operand) (s : State) : Result :=
  withDst 1 a s fun d =>
    match s.popWord with
    | none => raise .stackUnderflow .nothing s
    | some (w, s') => complete ((s'.setReg d w.toNat).advance 1)

end Sys2Proof.Machine
end

