-- ==== Sys2Proof/Machine/Fetch.lean ====
section
/-! DEFINITION. Phases 2 to 4 of a step (40_execute_loop.md R112 to R114): opcode fetch, decode, operand fetch. -/

namespace Sys2Proof.Machine

/-- The words at word addresses a, a + 1, ..., at most n of them and only as far as memory reaches; each is read with
`MemRead` (20_memory.md R51). -/
def Memory.wordsAt (m : Memory) (a : Nat) : Nat → List Word
  | 0 => []
  | n + 1 =>
    match m.read a with
    | none => []
    | some w => w :: m.wordsAt (a + 1) n

/-- The words an instruction at pc can occupy: at most four (30_encoding.md R80). -/
def State.codeWords (s : State) : List Word := s.mem.wordsAt s.pc.toNat 4

/-- Phases 2 to 4: the instruction at pc, read from memory at this moment (20_memory.md R62). A word that memory does not
have is one the decoder misses. -/
def State.fetch (s : State) : Except DecodeError Instr := decodeWords s.codeWords

/-- The fault of a fetch that fails: AddressOutOfRange with the first address that does not exist (R112, R114), or
UnknownOpcode with the word (R113). -/
def fetchFault (s : State) : DecodeError → Result
  | .noOpcode => raise .addressOutOfRange (.address s.pc.toNat) s
  | .unknownOpcode w => raise .unknownOpcode (.word w) s
  | .missingOperand k => raise .addressOutOfRange (.address (s.pc.toNat + k)) s

/-- Store the opcode-table word at pc, as far as memory reaches. -/
def State.placeWords (s : State) (ws : List Word) : State := { s with mem := s.mem.writeWords s.pc.toNat ws }

end Sys2Proof.Machine
end

