-- ==== Sys2Proof/Machine/Cycle.lean ====
section
/-! DEFINITION. The six phases of one step of a running machine (40_execute_loop.md R110, R123). -/

namespace Sys2Proof.Machine

/-- Watchdog test, fetch and decode, then the instruction's meaning (classification and execution), in that order. -/
def runCycle (s : State) : Result :=
  if s.watchdogDue then .next s.watchdogStop
  else
    match s.fetch with
    | .error e => fetchFault s e
    | .ok i => exec i s

end Sys2Proof.Machine
end

