-- ==== Sys2Proof/Machine/Step.lean ====
section
/-! DEFINITION. One step of the machine (40_execute_loop.md R110, R123), and how an instruction's bits are placed where
the next step fetches them. -/

namespace Sys2Proof.Machine

/-- A step exists only while the status is Running (40_execute_loop.md R110, 10_state.md R31). -/
def step (s : State) : Host.Outcome State Fault Refusal :=
  if s.status = .running then runCycle s else .fault .notRunning

/-- The state with an opcode-table word stored at pc; the bits from nbits to the longest instruction's end are 0 (log 2). -/
def State.withFetchWord (s : State) (nbits w : Nat) : State := s.placeWords (tableWords nbits w)

end Sys2Proof.Machine
end

