-- ==== Sys2Proof/Machine/Loader.lean ====
section
/-! DEFINITION. The image loader and the boot of the machine (70_reset_and_hazards.md R260 to R265). -/

namespace Sys2Proof.Machine

/-- Which load errors an image has (R263). -/
def imageError (image : List Byte) : Option ImageError :=
  match decide (image.length % 2 = 1), decide (2 * Config.memWords < image.length) with
  | false, false => none
  | true, false => some .oddLength
  | false, true => some .tooLong
  | true, true => some .oddLengthAndTooLong

/-- The bytes of an image that differ from the padding, at their own byte addresses from p on. -/
def Memory.ofBytes (p : Nat) : List Byte → Memory
  | [] => []
  | b :: bs => if b = Memory.unlisted p then Memory.ofBytes (p + 1) bs else (p, b) :: Memory.ofBytes (p + 1) bs

/-- The loader: the words of the image to addresses 0, 1, ..., the padding after them (R261, R262), or a refusal (R263).
No word is checked, masked or normalised. -/
def loadImage (image : List Byte) : Except ImageError Memory :=
  match imageError image with
  | some e => .error e
  | none => .ok (Memory.ofBytes 0 (bytesOfWords (wordsOfBytes image)))

/-- Reset: the creation of the machine from an image and a ceiling (R260, 10_state.md R36). A refused image leaves
LoadFailed and no step; the other fields are then DESIGN CHOICES nothing can read, safe (log 8). -/
def boot (image : List Byte) (ceiling : Option Nat) : State :=
  match loadImage image with
  | .ok mem => { State.reset with mem := mem, ceiling := ceiling }
  | .error e => { State.reset with status := .loadFailed e, ceiling := ceiling }

end Sys2Proof.Machine
end

