-- ==== Sys2Proof/Safety.lean ====
section
/-! DEFINITION. The words claims are stated in: how a run ends, when the machine stalls, the invariant of reachable states
(10_state.md R38) and reachability. -/

namespace Sys2Proof.Machine

/-- The run has ended (40_execute_loop.md R122). -/
def State.ended (s : State) : Prop := s.status ≠ .running

/-- The run ended normally: by `halt` or by `ret` on an empty stack (R122). -/
def State.endedNormally (s : State) : Prop := ∃ why, s.status = .halted why

/-- What the end of a run shows the host: the status with the fault record, and the output (R122). -/
def State.hostView (s : State) : Status × Option FaultRecord × List Value := (s.status, s.fault, s.outs)

/-- An instruction that cannot complete yet: an `in` with a legal operand, nothing queued and no line ready
(40_execute_loop.md R121, 48_io.md R211). -/
def State.waitsIn (s : State) (i : Instr) : Prop := (∃ d, i = .inp (.reg d)) ∧ s.inq = [] ∧ s.hostLines = []

/-- The machine waits inside `in` (40_execute_loop.md R121): it runs, the watchdog is not due, and the instruction at pc
cannot complete yet. -/
def State.stalled (s : State) : Prop :=
  s.status = .running ∧ s.watchdogDue = false ∧ ∃ i, s.fetch = .ok i ∧ s.waitsIn i

/-- The invariant of reachable states (10_state.md R38 points 3 and 4, R32, R33) and the memory's canonical form (log 1).
Points 1 and 2 of R38 hold by the types of registers and cells. -/
structure State.Inv (s : State) : Prop where
  /-- the memory list is canonical -/
  mem_wf : s.mem.wf = true
  /-- every stack word is in [0, 32768] -/
  stack_le : ∀ w ∈ s.stack, w.toNat ≤ 32768
  /-- pc is in [0, 32768] -/
  pc_le : s.pc.toNat ≤ 32768
  /-- a fault is recorded exactly in a faulted machine -/
  fault_iff : s.fault.isSome = true ↔ s.status = .faulted
  /-- with a ceiling, cycles never exceeds it -/
  cycles_le : ∀ n, s.ceiling = some n → s.cycles ≤ n

/-- The states a run can reach from s: by the machine's steps and by the host having one more line ready (R124,
70_reset_and_hazards.md R271). -/
inductive Reaches (s : State) : State → Prop where
  | start : Reaches s s
  | step {t u : State} : Reaches s t → step t = .next u → Reaches s u
  | line {t : State} (l : List Value) : Reaches s t → Reaches s (t.supplyLine l)

/-- The state after k steps, if every one of them exists (40_execute_loop.md R124). -/
def steps : Nat → State → Option State
  | 0, s => some s
  | k + 1, s =>
    match Machine.step s with
    | .next t => steps k t
    | .fault _ => none
    | .refused _ => none

/-- The fault of an operand that does not fit its role: a literal in a destination position is InvalidDestination, a word
above 32775 anywhere is InvalidOperand (40_execute_loop.md R115). A register reference fits every role. -/
def misfitKind : Operand → FaultKind
  | .lit _ => .invalidDestination
  | .reg _ => .invalidDestination
  | .invalid _ => .invalidOperand

/-- Run `in` into register d n times and collect what the register then holds (48_io.md R211). -/
def receive (d : Reg) : Nat → State → Option (List Value × State)
  | 0, s => some ([], s)
  | n + 1, s =>
    match exec (.inp (.reg d)) s with
    | .next t => (receive d n t).map fun p => (t.reg d :: p.1, p.2)
    | .fault _ => none
    | .refused _ => none

end Sys2Proof.Machine
end

