-- ==== Sys2Proof/Certificates/Slice0/Obligations.lean ====
section
/-! DEFINITION. The statements for the provers. "D<n>" is a decision of 92_eei_decisions.md, the spec's own choice where
its source is silent; "log <n>" is notes/assumptions/<n>.md. A fault of the spec is a next state (log 6). -/

open Sys2Proof Sys2Proof.Machine

/-! ### Encoding -/

/-- 30_encoding.md R80 to R82, R94: no bit of a well-formed instruction is lost in its words or in its image bytes,
whatever follows them. Rests on D1 and D2 (log 10, log 13). -/
def Obligations.DecodeOfEncodeIsTheInstruction : Prop :=
  ∀ i : Instr, i.wellFormed = true →
    (∀ rest : List Word, decodeWords (encode i ++ rest) = .ok i) ∧
      ∀ rest : List Byte, decode (encodeBytes i ++ rest) = .ok i

/-- 30_encoding.md R90: no two encodings execute as the same instruction; word sequences that decode alike begin with the
same words, as many as the instruction occupies. Rests on D2 (log 13). -/
def Obligations.DecodingDeterminesTheWords : Prop :=
  ∀ (ws ws' : List Word) (i : Instr), decodeWords ws = .ok i → decodeWords ws' = .ok i →
    ws.take (1 + i.opcount) = ws'.take (1 + i.opcount) ∧ 1 + i.opcount ≤ ws.length

/-- 30_encoding.md R83: the three classes of operand word, by range, and what each carries; an invalid word is legal in
neither role. The clauses by bit pattern (bit 15, bits 14 to 3, bits 2 to 0) are the column that R83 itself marks as
derived, with the bit numbering of the spec's decision D19. -/
def Obligations.OperandWordsFallInThreeClasses : Prop :=
  ∀ w : Word,
    (w.toNat ≤ 32767 → classify w = .lit (w.extractLsb' 0 15) ∧ (w.extractLsb' 0 15).toNat = w.toNat ∧
      w.getLsbD 15 = false) ∧
    (32768 ≤ w.toNat → w.toNat ≤ 32775 → w.getLsbD 15 = true ∧ w.extractLsb' 3 12 = 0 ∧
      ∃ r, classify w = .reg r ∧ r.index = w.toNat - 32768 ∧ r.index = (w.extractLsb' 0 3).toNat) ∧
    (32775 < w.toNat → classify w = .invalid w ∧ w.getLsbD 15 = true ∧ w.extractLsb' 3 12 ≠ 0 ∧
      Role.value.accepts (classify w) = false ∧ Role.dest.accepts (classify w) = false)

/-- 30_encoding.md R82: the whole opcode word is compared with 0 to 21; a larger word, a register reference among them, is
no instruction, and every word up to 21 is the opcode word of the instruction it decodes to. -/
def Obligations.OpcodeWordsAreZeroToTwentyOne : Prop :=
  ∀ (op : Word) (ws : List Word),
    (decodeWords (op :: ws) = .error (.unknownOpcode op) ↔ 21 < op.toNat) ∧
    (op.toNat ≤ 21 → 3 ≤ ws.length → ∃ i, decodeWords (op :: ws) = .ok i ∧ i.opcode = op)

/-- 30_encoding.md R86, R85: the opcode map, every operand word at every value. The numbers other than 0 rest on D1
(log 10), the operand positions on D2 (log 13). -/
def Obligations.OpcodeMapOfTheTwentyTwoInstructions : Prop :=
  ∀ a b c : Word,
    decodeWords [0] = .ok .halt ∧
    decodeWords [1, a, b] = .ok (.set (classify a) (classify b)) ∧
    decodeWords [2, a] = .ok (.push (classify a)) ∧
    decodeWords [3, a] = .ok (.pop (classify a)) ∧
    decodeWords [4, a, b, c] = .ok (.eq (classify a) (classify b) (classify c)) ∧
    decodeWords [5, a, b, c] = .ok (.gt (classify a) (classify b) (classify c)) ∧
    decodeWords [6, a] = .ok (.jmp (classify a)) ∧
    decodeWords [7, a, b] = .ok (.jt (classify a) (classify b)) ∧
    decodeWords [8, a, b] = .ok (.jf (classify a) (classify b)) ∧
    decodeWords [9, a, b, c] = .ok (.add (classify a) (classify b) (classify c)) ∧
    decodeWords [10, a, b, c] = .ok (.mult (classify a) (classify b) (classify c)) ∧
    decodeWords [11, a, b, c] = .ok (.mod (classify a) (classify b) (classify c)) ∧
    decodeWords [12, a, b, c] = .ok (.and (classify a) (classify b) (classify c)) ∧
    decodeWords [13, a, b, c] = .ok (.or (classify a) (classify b) (classify c)) ∧
    decodeWords [14, a, b] = .ok (.not (classify a) (classify b)) ∧
    decodeWords [15, a, b] = .ok (.rmem (classify a) (classify b)) ∧
    decodeWords [16, a, b] = .ok (.wmem (classify a) (classify b)) ∧
    decodeWords [17, a] = .ok (.call (classify a)) ∧
    decodeWords [18] = .ok .ret ∧
    decodeWords [19, a] = .ok (.out (classify a)) ∧
    decodeWords [20, a] = .ok (.inp (classify a)) ∧
    decodeWords [21] = .ok .noop

/-- 30_encoding.md R94 and 95_test_vectors.md M1, J3, A1, L7, I3: words and image bytes written out from the spec, each
the instruction it stands for. A sanity statement; rests on D1 (log 10). -/
def Obligations.SampleWordsDecodeToTheirInstructions : Prop :=
  decodeWords [1, 32769, 32767] = .ok (.set (.reg .r1) (.lit 32767)) ∧
  decodeWords [7, 32768, 50] = .ok (.jt (.reg .r0) (.lit 50)) ∧
  decodeWords [9, 32768, 32769, 15] = .ok (.add (.reg .r0) (.reg .r1) (.lit 15)) ∧
  decodeWords [16, 32768, 32769] = .ok (.wmem (.reg .r0) (.reg .r1)) ∧
  decodeWords [20, 32768] = .ok (.inp (.reg .r0)) ∧
  decode [0x09, 0x00, 0x00, 0x80, 0x01, 0x80, 0x04, 0x00] = .ok (.add (.reg .r0) (.reg .r1) (.lit 4))

/-! ### Operand resolver, register file, memory -/

/-- 40_execute_loop.md R116: the value of every legal operand word, in [0, 32767], read from the registers as they are
before the instruction writes. -/
def Obligations.ValOfALegalOperandWord : Prop :=
  (∀ (s : State) (w : Word), w.toNat ≤ 32775 →
    ∃ v, s.val (classify w) = some v ∧ v.toNat ≤ 32767 ∧
      (w.toNat ≤ 32767 → v.toNat = w.toNat) ∧ (32768 ≤ w.toNat → v = s.reg (Reg.ofIndex (w.toNat - 32768)))) ∧
  (∀ (s t : State) (d : Reg), exec (.add (.reg d) (.reg d) (.reg d)) s = .next t →
    (t.reg d).toNat = ((s.reg d).toNat + (s.reg d).toNat) % 32768)

/-- 40_execute_loop.md R117, 10_state.md R22: the register of every register reference and the normalised write to it; the
twelve opcodes whose first operand is a destination (30_encoding.md R85, R86: their numbers rest on D1, log 10, and that
`in` is among them and `wmem` is not on D22, log 13), whose meanings go on with that register and write no other; and that
none of them reads it: where no value operand names it, a completed instruction gives the same next state whatever the
register held, one that faults leaves it as it was (a next state, log 6, that counts no cycle), and one that stalls stalls
(log 5). -/
def Obligations.DstOfARegisterReference : Prop :=
  (∀ w : Word, 32768 ≤ w.toNat → w.toNat ≤ 32775 →
    ∃ r, Operand.dst (classify w) = some r ∧ r.index = w.toNat - 32768 ∧ r.index = (w.extractLsb' 0 3).toNat ∧
      r.index = w.toNat % 8 ∧ ∀ (s : State) (n : Nat), ((s.setReg r n).reg r).toNat = n % 32768) ∧
  (∀ (k : Nat) (a : Operand) (s : State) (f : Reg → Result) (r : Reg), Operand.dst a = some r →
    withDst k a s f = f r) ∧
  (∀ i : Instr, (∃ a rest, i.operands = (.dest, a) :: rest) ↔
    i.opcode ∈ ([1, 3, 4, 5, 9, 10, 11, 12, 13, 14, 15, 20] : List Word)) ∧
  (∀ (i : Instr) (a : Operand) (rest : List (Role × Operand)), i.operands = (.dest, a) :: rest →
    i.destReg = Operand.dst a) ∧
  (∀ (i : Instr) (s t : State) (r : Reg), i.destReg = some r → exec i s = .next t →
    t.regs = s.regs ∨ ∃ n, t.regs = (s.setReg r n).regs) ∧
  (∀ (s : State) (r : Reg) (n m : Nat), (s.setReg r n).setReg r m = s.setReg r m) ∧
  (∀ (i : Instr) (s t : State) (r : Reg) (n : Nat), i.destReg = some r → (Role.value, Operand.reg r) ∉ i.operands →
    exec i s = .next t → exec i (s.setReg r n) = .next (if t.cycles = s.cycles then t.setReg r n else t)) ∧
  (∀ (i : Instr) (s : State) (r : Reg) (n : Nat) (φ : Fault), exec i s = .fault φ → exec i (s.setReg r n) = .fault φ)

/-- 20_memory.md R51: MemRead is the cell at an address up to 32767 and nothing beyond, where the opcode fetch raises
AddressOutOfRange; the address of a data read is a value and always exists. -/
def Obligations.MemReadIsTheCellOrNothing : Prop :=
  (∀ (m : Memory) (a : Nat), (a ≤ 32767 → m.read a = some (m.readWord a)) ∧ (32767 < a → m.read a = none)) ∧
  (∀ (m : Memory) (v : Value), m.read v.toNat = some (m.readWord v.toNat)) ∧
  (∀ s : State, s.status = .running → s.watchdogDue = false → 32767 < s.pc.toNat →
    step s = .next (s.raise .addressOutOfRange (.address s.pc.toNat)))

/-- 20_memory.md R52: MemWrite stores the value zero-extended at its address, at every address, and changes no other cell;
the premise is the memory's canonical form (log 1), which every step keeps (EveryStepKeepsTheInvariant). -/
def Obligations.MemWriteStoresTheValueAndNothingElse : Prop :=
  ∀ (m : Memory) (a v : Value), m.wf = true →
    (m.write a v).readWord a.toNat = v.setWidth 16 ∧ ((m.write a v).readWord a.toNat).toNat = v.toNat ∧
    (∀ b, b ≠ a.toNat → (m.write a v).readWord b = m.readWord b) ∧
    (∀ p, p ≠ 2 * a.toNat → p ≠ 2 * a.toNat + 1 → (m.write a v).readByte p = m.readByte p) ∧
    (m.write a v).wf = true

/-- The memory's canonical form is one list per content (the model's choice of representation, log 1): canonical memories
whose 32768 cells read alike are equal. -/
def Obligations.CanonicalMemoriesThatReadAlikeAreEqual : Prop :=
  ∀ m m' : Memory, m.wf = true → m'.wf = true → (∀ a, a ≤ 32767 → m.readWord a = m'.readWord a) → m = m'

/-- 10_state.md R22: a register write stores its natural number modulo 32768 and changes nothing else; so a stack word and
a memory cell of 32768 or more arrive reduced (D20, D27, log 13). -/
def Obligations.RegisterWritesAreNormalised : Prop :=
  (∀ (s : State) (r : Reg) (n : Nat), ((s.setReg r n).reg r).toNat = n % 32768 ∧
    (∀ q, q ≠ r → (s.setReg r n).reg q = s.reg q) ∧ s.setReg r n = { s with regs := (s.setReg r n).regs }) ∧
  (∀ (s t : State) (d : Reg) (w : Word) (rest : List Word), s.stack = w :: rest →
    exec (.pop (.reg d)) s = .next t → (t.reg d).toNat = w.toNat % 32768) ∧
  (∀ (s t : State) (d : Reg) (b : Operand) (x : Value), s.val b = some x →
    exec (.rmem (.reg d) b) s = .next t → (t.reg d).toNat = (s.mem.readWord x.toNat).toNat % 32768)

/-- 20_memory.md R59 point 2: after any sequence of stores a cell reads as the latest store to it, or as before if there
was none. The premise is the canonical form (log 1). -/
def Obligations.ReadReturnsTheLatestWrite : Prop :=
  ∀ (m : Memory) (ws : List (Value × Value)) (a : Value), m.wf = true →
    (ws.foldl (fun m p => m.write p.1 p.2) m).readWord a.toNat =
      match ws.reverse.find? (fun p => p.1 = a) with
      | some p => p.2.setWidth 16
      | none => m.readWord a.toNat

/-! ### Instructions: the result, the completion and everything left unchanged, as one equation each.

The clause on `cycles` is 40_execute_loop.md R120 (D24, log 13). -/

/-- 41_move_stack.md R140. -/
def Obligations.SetCopiesAValue : Prop :=
  ∀ (s : State) (d : Reg) (b : Operand) (v : Value), s.val b = some v →
    exec (.set (.reg d) b) s = .next { s with regs := s.regs.set d v, pc := s.pc + 3, cycles := s.cycles + 1 }

/-- 41_move_stack.md R141: the stack is unbounded (10_state.md R28; STACK_CAPACITY is "none", D14, log 7). -/
def Obligations.PushAddsOneWord : Prop :=
  ∀ (s : State) (a : Operand) (v : Value), s.val a = some v →
    exec (.push a) s =
      .next { s with stack := v.setWidth 16 :: s.stack, pc := s.pc + 2, cycles := s.cycles + 1 }

/-- 41_move_stack.md R142: the top word modulo 32768 (D27); an empty stack is the fatal StackUnderflow, not a normal end. -/
def Obligations.PopTakesTheTopOrUnderflows : Prop :=
  (∀ (s : State) (d : Reg) (w : Word) (rest : List Word), s.stack = w :: rest →
    exec (.pop (.reg d)) s = .next { s with regs := s.regs.set d (w.setWidth 15), stack := rest, pc := s.pc + 2,
                                            cycles := s.cycles + 1 }) ∧
  (∀ (s : State) (d : Reg), s.stack = [] → exec (.pop (.reg d)) s =
    .next { s with status := .faulted, fault := some ⟨.stackUnderflow, s.pc, .nothing⟩ })

/-- 42_compare.md R150, R151: 1 or 0 by the values, unsigned. -/
def Obligations.ComparisonsWriteOneOrZero : Prop :=
  ∀ (s : State) (d : Reg) (b c : Operand) (x y : Value), s.val b = some x → s.val c = some y →
    exec (.eq (.reg d) b c) s = .next { s with regs := s.regs.set d (if x.toNat = y.toNat then 1 else 0),
                                               pc := s.pc + 4, cycles := s.cycles + 1 } ∧
    exec (.gt (.reg d) b c) s = .next { s with regs := s.regs.set d (if x.toNat > y.toNat then 1 else 0),
                                               pc := s.pc + 4, cycles := s.cycles + 1 }

/-- 43_jumps.md R160. -/
def Obligations.JmpGoesToItsTarget : Prop :=
  ∀ (s : State) (a : Operand) (t : Value), s.val a = some t →
    exec (.jmp a) s = .next { s with pc := t.setWidth 16, cycles := s.cycles + 1 }

/-- 43_jumps.md R161, R162: for the same operands exactly one of `jt` and `jf` jumps. -/
def Obligations.JtAndJfJumpOnNonZeroAndZero : Prop :=
  ∀ (s : State) (a b : Operand) (x t : Value), s.val a = some x → s.val b = some t →
    exec (.jt a b) s =
      .next { s with pc := if x.toNat ≠ 0 then t.setWidth 16 else s.pc + 3, cycles := s.cycles + 1 } ∧
    exec (.jf a b) s =
      .next { s with pc := if x.toNat = 0 then t.setWidth 16 else s.pc + 3, cycles := s.cycles + 1 }

/-- 44_arithmetic.md R170, R171, R174: the exact sum and product, kept modulo 32768. -/
def Obligations.AddAndMultWrapModulo32768 : Prop :=
  ∀ (s : State) (d : Reg) (b c : Operand) (x y : Value), s.val b = some x → s.val c = some y →
    exec (.add (.reg d) b c) s =
      .next { s with regs := s.regs.set d (BitVec.ofNat 15 ((x.toNat + y.toNat) % 32768)), pc := s.pc + 4,
                     cycles := s.cycles + 1 } ∧
    exec (.mult (.reg d) b c) s =
      .next { s with regs := s.regs.set d (BitVec.ofNat 15 ((x.toNat * y.toNat) % 32768)), pc := s.pc + 4,
                     cycles := s.cycles + 1 }

/-- 44_arithmetic.md R172, R175: the remainder r with x = q * y + r and r below y; divisor 0 is the fatal ModByZero and
writes nothing (D8, log 12). -/
def Obligations.ModIsTheRemainderOrFaults : Prop :=
  ∀ (s : State) (d : Reg) (b c : Operand) (x y : Value), s.val b = some x → s.val c = some y →
    (y.toNat ≠ 0 → ∃ r : Value, r.toNat < y.toNat ∧ x.toNat = y.toNat * (x.toNat / y.toNat) + r.toNat ∧
      exec (.mod (.reg d) b c) s =
        .next { s with regs := s.regs.set d r, pc := s.pc + 4, cycles := s.cycles + 1 }) ∧
    (y.toNat = 0 → exec (.mod (.reg d) b c) s =
      .next { s with status := .faulted, fault := some ⟨.modByZero, s.pc, .nothing⟩ })

/-- 45_bitwise.md R180 to R183: bit by bit on the 15 bits of the values. -/
def Obligations.BitwiseOperationsActOnFifteenBits : Prop :=
  ∀ (s : State) (d : Reg) (b c : Operand) (x y : Value), s.val b = some x → s.val c = some y →
    ∃ p q n : Value,
      (∀ j, j < 15 → p.getLsbD j = (x.getLsbD j && y.getLsbD j) ∧ q.getLsbD j = (x.getLsbD j || y.getLsbD j) ∧
        n.getLsbD j = !x.getLsbD j) ∧ n.toNat = 32767 - x.toNat ∧
      exec (.and (.reg d) b c) s = .next { s with regs := s.regs.set d p, pc := s.pc + 4, cycles := s.cycles + 1 } ∧
      exec (.or (.reg d) b c) s = .next { s with regs := s.regs.set d q, pc := s.pc + 4, cycles := s.cycles + 1 } ∧
      exec (.not (.reg d) b) s = .next { s with regs := s.regs.set d n, pc := s.pc + 3, cycles := s.cycles + 1 }

/-- 46_memory_access.md R190, R192: the low 15 bits of the cell at the operand's value (D20, log 13); no data read
faults. -/
def Obligations.RmemReadsTheAddressedCell : Prop :=
  ∀ (s : State) (d : Reg) (b : Operand) (x : Value), s.val b = some x →
    exec (.rmem (.reg d) b) s =
      .next { s with regs := s.regs.set d ((s.mem.readWord x.toNat).setWidth 15), pc := s.pc + 3,
                     cycles := s.cycles + 1 }

/-- 46_memory_access.md R191: the value of b in the cell at the value of a, every other byte of memory as before; the
premise on memory is its canonical form (log 1). -/
def Obligations.WmemStoresInTheAddressedCell : Prop :=
  ∀ (s : State) (a b : Operand) (x y : Value), s.val a = some x → s.val b = some y → s.mem.wf = true →
    ∃ m, exec (.wmem a b) s = .next { s with mem := m, pc := s.pc + 3, cycles := s.cycles + 1 } ∧
      m.readWord x.toNat = y.setWidth 16 ∧ m.wf = true ∧
      ∀ p, p ≠ 2 * x.toNat → p ≠ 2 * x.toNat + 1 → m.readByte p = s.mem.readByte p

/-- 47_call_ret_halt_noop.md R200: pc + 2 is pushed as it is (D27, log 13). -/
def Obligations.CallPushesTheReturnAddress : Prop :=
  ∀ (s : State) (a : Operand) (t : Value), s.val a = some t →
    exec (.call a) s =
      .next { s with stack := (s.pc + 2) :: s.stack, pc := t.setWidth 16, cycles := s.cycles + 1 }

/-- 47_call_ret_halt_noop.md R201: the popped word goes to pc unchanged (D27); an empty stack is a normal end, counted,
pc kept. -/
def Obligations.RetJumpsOrEndsTheRun : Prop :=
  (∀ (s : State) (w : Word) (rest : List Word), s.stack = w :: rest →
    exec .ret s = .next { s with stack := rest, pc := w, cycles := s.cycles + 1 }) ∧
  (∀ s : State, s.stack = [] →
    exec .ret s = .next { s with status := .halted .byRetEmpty, cycles := s.cycles + 1 })

/-- 47_call_ret_halt_noop.md R202: word 0 is `halt`; it ends the run normally and changes nothing but status and cycles.
That there is no step after it is the rule's; that the model then answers its own stop `notRunning` is the model's choice
(log 6). -/
def Obligations.HaltEndsTheRun : Prop :=
  decodeWords [0] = .ok .halt ∧ (encode .halt).length = 1 ∧
  (∀ s : State, exec .halt s = .next { s with status := .halted .byHalt, cycles := s.cycles + 1 }) ∧
  (∀ (s t : State), exec .halt s = .next t → step t = .fault .notRunning) ∧
  (∀ c, c ≠ some 0 → step (boot [0, 0] c) = .next { boot [0, 0] c with status := .halted .byHalt, cycles := 1 })

/-- 47_call_ret_halt_noop.md R203: only pc and the count move. -/
def Obligations.NoopDoesNothingElse : Prop :=
  ∀ s : State, exec .noop s = .next { s with pc := s.pc + 1, cycles := s.cycles + 1 }

/-- 48_io.md R210, R215: one character at the end of the output. -/
def Obligations.OutAppendsOneCharacter : Prop :=
  ∀ (s : State) (a : Operand) (v : Value), s.val a = some v →
    exec (.out a) s = .next { s with outs := s.outs ++ [v], pc := s.pc + 2, cycles := s.cycles + 1 }

/-- 48_io.md R211: the queue's head; a refill and the dequeue in one step; with nothing queued and no line ready there is
no next state (that the model shows the stall as its stuck state `stalled` is log 5). -/
def Obligations.InDeliversTheNextCharacterOrStalls : Prop :=
  ∀ (s : State) (d : Reg),
    (∀ ch q, s.inq = ch :: q → exec (.inp (.reg d)) s =
      .next { s with regs := s.regs.set d ch, inq := q, pc := s.pc + 2, cycles := s.cycles + 1 }) ∧
    (∀ line lines ch q, s.inq = [] → s.hostLines = line :: lines → line ++ [Config.newline] = ch :: q →
      exec (.inp (.reg d)) s = .next { s with regs := s.regs.set d ch, inq := q, hostLines := lines, pc := s.pc + 2,
                                              cycles := s.cycles + 1 }) ∧
    (s.inq = [] → s.hostLines = [] → exec (.inp (.reg d)) s = .fault .stalled)

/-- 48_io.md R213: a refill happens only when an `in` finds the queue empty, takes exactly one line, queues its characters
in order with one NEWLINE after them, an empty line giving the newline alone; whatever lines the host has. The code 10 of
NEWLINE is not part of this statement (log 11); that the lines are a list fixed or supplied from outside is log 4. -/
def Obligations.RefillTakesExactlyOneLine : Prop :=
  (∀ (i : Instr) (s t : State), exec i s = .next t → (s.inq ≠ [] ∨ ∀ a, i ≠ .inp a) → t.hostLines = s.hostLines) ∧
  (∀ (s t : State) (d : Reg) (line : List Value) (lines : List (List Value)), s.inq = [] →
    s.hostLines = line :: lines → exec (.inp (.reg d)) s = .next t →
    t.hostLines = lines ∧ t.reg d :: t.inq = line ++ [Config.newline] ∧
      (line = [] → t.reg d = Config.newline ∧ t.inq = []))

/-! ### The step -/

/-- 40_execute_loop.md R112, R114, 30_encoding.md R80: word k of what the fetch reads is MemRead(pc + k), as far as memory
reaches. Rests on D2 and D9 (log 12, log 13). -/
def Obligations.CodeWordsAreTheCellsAtPc : Prop :=
  ∀ (s : State) (k : Nat), k < 4 → s.codeWords[k]? = s.mem.read (s.pc.toNat + k)

/-- 40_execute_loop.md R123: when the words at pc decode to i, well-formed or not, a step of a running machine that is not
at its ceiling is exec of i, and nothing is added around it. -/
def Obligations.StepRunsTheDecodedInstruction : Prop :=
  ∀ (s : State) (i : Instr), s.status = .running → s.watchdogDue = false → decodeWords s.codeWords = .ok i →
    step s = exec i s

/-- The model's interface (log 2): an opcode-table word placed at pc is the instruction the next step runs. -/
def Obligations.PlacedWordIsWhatTheNextStepRuns : Prop :=
  ∀ (s : State) (nbits w : Nat) (i : Instr), s.mem.wf = true → s.status = .running → s.watchdogDue = false →
    s.pc.toNat + 3 ≤ 32767 → decodeTableWord nbits w = some i →
    step (s.withFetchWord nbits w) = exec i (s.withFetchWord nbits w)

/-- 40_execute_loop.md R112 to R114, 60_exceptions.md R222, R223, R233: opcode fetch beyond memory, then an unknown opcode,
then an operand word beyond memory, always 32768 (D4, D9, D10, log 12). -/
def Obligations.FetchFaultsInPhaseOrder : Prop :=
  ∀ s : State, s.status = .running → s.watchdogDue = false →
    (32767 < s.pc.toNat → step s = .next (s.raise .addressOutOfRange (.address s.pc.toNat))) ∧
    (∀ w, s.mem.read s.pc.toNat = some w → 21 < w.toNat → step s = .next (s.raise .unknownOpcode (.word w))) ∧
    (∀ i : Instr, s.mem.read s.pc.toNat = some i.opcode → 32767 < s.pc.toNat + i.opcount →
      step s = .next (s.raise .addressOutOfRange (.address 32768)))

/-- 40_execute_loop.md R111: at the ceiling nothing is fetched and only the status changes; below it, or without one, no
step is a watchdog stop. Where the test sits is D13. -/
def Obligations.WatchdogStopsBeforeTheFetch : Prop :=
  ∀ s : State, s.status = .running →
    (∀ n, s.ceiling = some n → n ≤ s.cycles → step s = .next { s with status := .watchdogStop }) ∧
    ((∀ n, s.ceiling = some n → s.cycles < n) → ∀ t, step s = .next t → t.status ≠ .watchdogStop)

/-- 10_state.md R31, 40_execute_loop.md R121, 70_reset_and_hazards.md R270: a running, unstalled machine has a next step,
which changes it; a stalled machine has no enabled step, and from every status but Running there is no step. How the model
shows the two absences is its own choice: the stuck state `stalled` (log 5) and the stop `notRunning` (log 6). -/
def Obligations.ExactlyTheRunningMachineSteps : Prop :=
  ∀ s : State, (s.status = .running → ¬ s.stalled → ∃ t, step s = .next t ∧ t ≠ s) ∧
    (s.stalled → step s = .fault .stalled) ∧ (s.status ≠ .running → step s = .fault .notRunning)

/-- 40_execute_loop.md R115, 60_exceptions.md R224, R225, R233 point 5: the first operand, in the order a, b, c, that does
not fit its role is reported with its position and word, before anything else the instruction does (D5, D6, D7, D10,
log 12). -/
def Obligations.FirstMisfitOperandIsReported : Prop :=
  ∀ (i : Instr) (s : State) (j : Nat) (ρ : Role) (w : Operand), i.operands[j]? = some (ρ, w) → ρ.accepts w = false →
    (∀ j' p, j' < j → i.operands[j']? = some p → p.1.accepts p.2 = true) →
    exec i s = .next (s.raise (misfitKind w) (.operand (j + 1) w.word))

/-- 60_exceptions.md R221: past classification no instruction faults but `pop` on an empty stack and `mod` by zero. -/
def Obligations.OnlyPopAndModFaultInExecution : Prop :=
  ∀ (i : Instr) (s t : State), i.wellFormed = true → s.status = .running → exec i s = .next t → t.status = .faulted →
    (∃ d, i = .pop (.reg d) ∧ s.stack = [] ∧ t = s.raise .stackUnderflow .nothing) ∨
    (∃ d b c, i = .mod (.reg d) b c ∧ s.val c = some 0 ∧ t = s.raise .modByZero .nothing)

/-- 60_exceptions.md R234: a step that faults changes the status and the record, which holds the pc of the faulting
instruction; nothing else (D11, D12, log 12). -/
def Obligations.FaultEntryChangesOnlyStatusAndRecord : Prop :=
  ∀ s t : State, step s = .next t → t.status = .faulted →
    ∃ kind info, t = { s with status := .faulted, fault := some ⟨kind, s.pc, info⟩ }

/-- 10_state.md R31, 60_exceptions.md R234, 10_state.md R26: what enters each stop and what it leaves. A step ends
Halted(ByHalt) exactly when `halt` is fetched, Halted(ByRetEmpty) exactly when `ret` is fetched with an empty stack, both
below the ceiling, and WatchdogStop exactly when cycles has reached the ceiling; everything but the status is left as it
was, and the normal stops count their instruction (D11, D13, D24, log 13). No step ends LoadFailed. -/
def Obligations.StopsLeaveEverythingElse : Prop :=
  ∀ s t : State, step s = .next t →
    (t.status = .halted .byHalt ↔ s.watchdogDue = false ∧ s.fetch = .ok .halt) ∧
    (t.status = .halted .byRetEmpty ↔ s.watchdogDue = false ∧ s.fetch = .ok .ret ∧ s.stack = []) ∧
    (t.status = .watchdogStop ↔ ∃ n, s.ceiling = some n ∧ n ≤ s.cycles) ∧
    (∀ why, t.status = .halted why → t = { s with status := .halted why, cycles := s.cycles + 1 }) ∧
    (t.status = .watchdogStop → t = { s with status := .watchdogStop }) ∧
    (∀ why, t.status ≠ .loadFailed why)

/-- 40_execute_loop.md R120: an instruction that completes with a pc update or a normal stop counts one cycle, and a fault
counts none (a next state, log 6). The stall counts none because it has no next state at all: the only instruction of
which that is so is an `in` with nothing queued and no line ready (the stuck state `stalled`, log 5). -/
def Obligations.CyclesCountCompletedInstructions : Prop :=
  (∀ (i : Instr) (s t : State), s.status = .running → exec i s = .next t →
    (t.status = .running → t.cycles = s.cycles + 1) ∧
    (∀ why, t.status = .halted why → t.cycles = s.cycles + 1) ∧
    (t.status = .faulted → t.cycles = s.cycles)) ∧
  (∀ (i : Instr) (s : State), (∀ t, exec i s ≠ .next t) ↔
    (∃ d, i = .inp (.reg d)) ∧ s.inq = [] ∧ s.hostLines = [])

/-- 40_execute_loop.md R121: a running machine has no enabled step exactly when it is stalled: an `in` is fetched, nothing
is queued and no line is ready (shown as the stuck state `stalled`, log 5). A step that is taken and leaves the machine
running counts one. The stall is no end of the run: whatever else a line that the host then has (log 4) holds, the same
`in` completes. -/
def Obligations.OnlyInCanStall : Prop :=
  (∀ s : State, step s = .fault .stalled ↔ s.stalled) ∧
  (∀ s : State, s.stalled ↔ s.status = .running ∧ ∀ t, step s ≠ .next t) ∧
  (∀ s t : State, step s = .next t → t.status = .running → t.cycles = s.cycles + 1) ∧
  (∀ (s : State) (line : List Value), s.stalled →
    ∃ t, step (s.supplyLine line) = .next t ∧ t.status = .running ∧ t.cycles = s.cycles + 1 ∧ t.hostLines = [])

/-! ### Frames -/

/-- 10_state.md R24: an instruction that writes a register writes the one its destination operand names; every other
register, and every register of the other instructions, is unchanged. -/
def Obligations.OnlyTheDestinationRegisterChanges : Prop :=
  ∀ (i : Instr) (s t : State), exec i s = .next t → ∀ r, i.destReg ≠ some r → t.reg r = s.reg r

/-- 20_memory.md R55, R58: memory changes only by `wmem`, and there only the two bytes of the cell at the value of a; every
other instruction leaves every byte. -/
def Obligations.OnlyWmemChangesMemory : Prop :=
  ∀ (i : Instr) (s t : State), exec i s = .next t →
    ∀ p, (∀ a b x, i = .wmem a b → s.val a = some x → p ≠ 2 * x.toNat ∧ p ≠ 2 * x.toNat + 1) →
      t.mem.readByte p = s.mem.readByte p

/-- 10_state.md R20, R28 to R30, R33, R35: the stack changes only by push, pop, call and ret, the output only by out, the
input only by in, the fault record only by a fault, the ceiling never. -/
def Obligations.StackAndTerminalChangeOnlyByTheirInstructions : Prop :=
  ∀ (i : Instr) (s t : State), exec i s = .next t →
    ((∀ a, i ≠ .push a) → (∀ a, i ≠ .pop a) → (∀ a, i ≠ .call a) → i ≠ .ret → t.stack = s.stack) ∧
    ((∀ a, i ≠ .out a) → t.outs = s.outs) ∧
    ((∀ a, i ≠ .inp a) → t.inq = s.inq ∧ t.hostLines = s.hostLines) ∧
    (t.fault ≠ s.fault → t.status = .faulted) ∧ t.ceiling = s.ceiling

/-- 20_memory.md R64: a run puts no word above 32767 into memory; after a step every cell is as before or at most 32767.
The premise on memory is its canonical form (log 1). -/
def Obligations.StoresNeverMakeALargeWord : Prop :=
  ∀ s t : State, s.mem.wf = true → step s = .next t → ∀ a, a ≤ 32767 →
    t.mem.readWord a = s.mem.readWord a ∨ (t.mem.readWord a).toNat ≤ 32767

/-- 10_state.md R32, R35: no instruction reads the cycle counter or the ceiling; with any other values there it does the
same to everything else and counts the same, or stalls the same (log 5). -/
def Obligations.NoInstructionReadsTheCounterOrCeiling : Prop :=
  (∀ (i : Instr) (s t : State) (n : Nat) (c : Option Nat), exec i s = .next t →
    ∃ k, t.cycles = s.cycles + k ∧
      exec i { s with cycles := n, ceiling := c } = .next { t with cycles := n + k, ceiling := c }) ∧
  (∀ (i : Instr) (s : State) (n : Nat) (c : Option Nat) (φ : Fault), exec i s = .fault φ →
    exec i { s with cycles := n, ceiling := c } = .fault φ)

/-! ### Invariants and runs -/

/-- 10_state.md R36, R38: the machine booted from an accepted image with any ceiling meets the invariant. Three clauses are
the model's choice: `State.reset` is the boot of the empty image without a ceiling (log 2, log 3); the invariant holds the
memory's canonical form (log 1); and the state of a refused image, of which the spec defines the status alone, meets the
invariant (log 8). -/
def Obligations.ResetAndBootMeetTheInvariant : Prop :=
  State.reset.Inv ∧ boot [] none = State.reset ∧ ∀ (image : List Byte) (c : Option Nat), (boot image c).Inv

/-- 10_state.md R38 points 3 and 4, R32, R33 and the canonical form (log 1): every step from a state that meets the
invariant ends in one. -/
def Obligations.EveryStepKeepsTheInvariant : Prop :=
  ∀ s t : State, s.Inv → step s = .next t → t.Inv

/-- 10_state.md R38 points 3 to 6: along every run, the host supplying lines as it likes, the invariant holds, the output
and the count only grow, the ceiling stays, and once the run has ended nothing changes but the host's own lines (log 4).
The invariant holds the memory's canonical form (log 1). -/
def Obligations.ReachableStatesKeepTheInvariantAndGrow : Prop :=
  ∀ s t : State, s.Inv → Reaches s t →
    t.Inv ∧ s.outs <+: t.outs ∧ s.cycles ≤ t.cycles ∧ t.ceiling = s.ceiling ∧
    (s.status ≠ .running → t = { s with hostLines := t.hostLines })

/-- 40_execute_loop.md R111, R124: under a ceiling n a run has completed one instruction per step while it still runs, so
it is still running after at most n steps; and within one step more it has ended or it waits for a line. -/
def Obligations.WatchdogBoundsEveryRun : Prop :=
  ∀ (n : Nat) (s : State), s.status = .running → s.ceiling = some n → s.cycles ≤ n →
    (∀ (k : Nat) (t : State), steps k s = some t → t.status = .running → t.cycles = s.cycles + k ∧ t.cycles ≤ n) ∧
    ∃ (k : Nat) (t : State), k ≤ n - s.cycles + 1 ∧ steps k s = some t ∧ (t.status ≠ .running ∨ t.stalled)

/-- 20_memory.md R65: where only padding lies from pc on, the machine runs noop after noop to 32768 and faults there; it
neither wraps nor halts (D9, log 12; noop = 21 is D1, log 10). -/
def Obligations.PaddingRunsToTheEndAndFaults : Prop :=
  ∀ s : State, s.status = .running → s.ceiling = none → s.pc.toNat ≤ 32768 →
    (∀ a, s.pc.toNat ≤ a → a ≤ 32767 → s.mem.readWord a = 21) →
    ∃ t : State, t = { s with pc := 32768, cycles := s.cycles + (32768 - s.pc.toNat) } ∧
      steps (32768 - s.pc.toNat) s = some t ∧ step t = .next (t.raise .addressOutOfRange (.address 32768))

/-- 47_call_ret_halt_noop.md R204: if at a `ret` the stack is as deep as right after the `call` and the top word was not
replaced, the `ret` resumes at the instruction after the `call`. -/
def Obligations.RetResumesAfterItsCall : Prop :=
  ∀ (s t u : State) (a : Operand) (v : Value), s.val a = some v → exec (.call a) s = .next t →
    u.stack.length = t.stack.length → u.stack.head? = t.stack.head? →
    ∃ r, exec .ret u = .next r ∧ r.pc = s.pc + 2 ∧ r.stack = u.stack.tail ∧ r.stack.length = s.stack.length ∧
      r.regs = u.regs

/-- 20_memory.md R62, 70_reset_and_hazards.md R268: a store into any word of the next instruction is what the next fetch
reads; in particular a stored 0 at pc halts there. The premise on memory is its canonical form (log 1). -/
def Obligations.AStoreIsSeenByTheNextFetch : Prop :=
  ∀ (s t : State) (a b : Operand) (x y : Value), s.mem.wf = true → s.val a = some x → s.val b = some y →
    exec (.wmem a b) s = .next t →
    (∀ k, k < 4 → t.pc.toNat + k = x.toNat → t.codeWords[k]? = some (y.setWidth 16)) ∧
    (t.pc.toNat = x.toNat → y = 0 → t.status = .running → t.watchdogDue = false →
      step t = .next { t with status := .halted .byHalt, cycles := t.cycles + 1 })

/-- 48_io.md R211, R213 (the source's property S8): a line is delivered character by character in its order, then the
newline, and the next `in` stalls if the host has no other line (a line ready is a listed line, log 4; the stall is the
stuck state `stalled`, log 5). -/
def Obligations.ALineIsDeliveredInOrder : Prop :=
  ∀ (s : State) (d : Reg) (line : List Value), s.inq = [] → s.hostLines = [line] →
    ∃ t, receive d (line.length + 1) s = some (line ++ [Config.newline], t) ∧ t.inq = [] ∧ t.hostLines = [] ∧
      t.cycles = s.cycles + (line.length + 1) ∧ exec (.inp (.reg d)) t = .fault .stalled

/-- 60_exceptions.md R229: with a capacity n the shared push of `push` and `call` raises StackOverflow on n words and pushes
nothing, and pushes below that; without one it always pushes (D14, log 7). -/
def Obligations.AFullStackOverflowsOnlyWithACapacity : Prop :=
  ∀ (w : Word) (s : State) (k : State → Result),
    (∀ n, n ≤ s.stack.length → withPush (some n) w s k = .next (s.raise .stackOverflow .nothing)) ∧
    (∀ n, s.stack.length < n → withPush (some n) w s k = k { s with stack := w :: s.stack }) ∧
    withPush Config.stackCapacity w s k = k { s with stack := w :: s.stack }

/-! ### The loader -/

/-- 70_reset_and_hazards.md R261: word i of an accepted image is byte[2i] + 256 * byte[2i+1] and lies at address i, not
checked, masked or normalised. -/
def Obligations.LoadedWordsAreTheImageBytes : Prop :=
  ∀ (image : List Byte) (c : Option Nat), image.length % 2 = 0 → image.length ≤ 65536 →
    (wordsOfBytes image).length = image.length / 2 ∧
    ∀ (i : Nat) (lo hi : Byte), image[2 * i]? = some lo → image[2 * i + 1]? = some hi →
      ((boot image c).mem.readWord i).toNat = lo.toNat + 256 * hi.toNat

/-- 70_reset_and_hazards.md R260, R262, 10_state.md R36: cells after the image hold 21 (D1, log 10), every other item has
its reset value and the machine runs. The two fields of the model's own, the ceiling and no host lines, are log 3 and
log 4. -/
def Obligations.AnAcceptedImageIsPaddedAndRuns : Prop :=
  ∀ (image : List Byte) (c : Option Nat), image.length % 2 = 0 → image.length ≤ 65536 →
    (∀ a, image.length ≤ 2 * a → a ≤ 32767 → (boot image c).mem.readWord a = 21) ∧
    boot image c = { regs := ⟨0, 0, 0, 0, 0, 0, 0, 0⟩, pc := 0, mem := (boot image c).mem, stack := [], inq := [],
                     outs := [], status := .running, cycles := 0, fault := none, ceiling := c, hostLines := [] }

/-- 70_reset_and_hazards.md R263, 60_exceptions.md R228: an odd or a too long image is refused with InvalidImageError, the
status says LoadFailed, and there is no step (D15; the reasons are recorded together where both apply, log 8). -/
def Obligations.ABadImageIsRefused : Prop :=
  ∀ (image : List Byte) (c : Option Nat), image.length % 2 = 1 ∨ 65536 < image.length →
    ∃ why, (boot image c).status = .loadFailed why ∧ (boot image c).status.code = 5 ∧ why.kind = .invalidImageError ∧
      why.kind.code = 8 ∧ step (boot image c) = .fault .notRunning ∧
      (why = .oddLength ∨ why = .oddLengthAndTooLong ↔ image.length % 2 = 1) ∧
      (why = .tooLong ∨ why = .oddLengthAndTooLong ↔ 65536 < image.length)
end

