-- ==== Sys2Proof/Laws/Decode.lean ====
section
/-! SUPPORT. The laws of operand words, of words and bytes, and of the decoder: what a word classifies as, that a class
gives its word back, and what a successful or failing decode says of the words. -/

namespace Sys2Proof

@[simp] theorem Reg.ofIndex_index (r : Reg) : Reg.ofIndex r.index = r := by cases r <;> rfl

theorem Reg.index_lt (r : Reg) : r.index < 8 := by cases r <;> decide

/-- The register file's index is taken modulo 8 (10_state.md R23). -/
theorem Reg.index_ofIndex (n : Nat) : (Reg.ofIndex n).index = n % 8 := by
  have h : n % 8 < 8 := Nat.mod_lt _ (by decide)
  generalize hk : n % 8 = k at h
  interval_cases k <;> simp [Reg.ofIndex, Reg.index, hk]

theorem Reg.ofIndex_add (n : Nat) : Reg.ofIndex (32768 + n) = Reg.ofIndex n := by
  have : (32768 + n) % 8 = n % 8 := by omega
  simp only [Reg.ofIndex, this]

/-- The operand word of a register is 32768 + its index (10_state.md R21). -/
theorem Operand.word_reg_toNat (r : Reg) : (Operand.word (.reg r)).toNat = 32768 + r.index := by cases r <;> rfl

theorem Operand.word_lit_toNat (v : Value) : (Operand.word (.lit v)).toNat = v.toNat := by
  have := v.isLt
  simp [Operand.word, Value.toWord]
  omega

/-- Every word is the word of its class: classification loses nothing (30_encoding.md R83). -/
@[simp] theorem Operand.word_classify (w : Word) : (classify w).word = w := by
  have hw := w.isLt
  unfold classify
  split
  · next h =>
    apply BitVec.eq_of_toNat_eq
    rw [Operand.word_lit_toNat]
    simp only [Config.regBase] at h
    simp only [BitVec.toNat_setWidth]
    omega
  · next h =>
    split
    · next h' =>
      simp only [Config.regBase, Config.regTop] at h h'
      apply BitVec.eq_of_toNat_eq
      rw [Operand.word_reg_toNat, Reg.index_ofIndex]
      omega
    · rfl

/-- A legal operand is the class of its word (30_encoding.md R83). -/
theorem classify_word {o : Operand} {ρ : Role} (h : ρ.accepts o = true) : classify o.word = o := by
  cases o with
  | invalid w => cases ρ <;> simp [Role.accepts] at h
  | reg r =>
    have hw := Operand.word_reg_toNat r
    have hr := r.index_lt
    unfold classify
    simp only [Config.regBase, Config.regTop, hw]
    rw [if_neg (by omega), if_pos (by omega), Reg.ofIndex_add, Reg.ofIndex_index]
  | lit v =>
    have hv := v.isLt
    have : (Operand.word (.lit v)).toNat < Config.regBase := by rw [Operand.word_lit_toNat]; exact hv
    unfold classify
    rw [if_pos this]
    congr 1
    apply BitVec.eq_of_toNat_eq
    simp only [BitVec.toNat_setWidth, Operand.word_lit_toNat]
    omega

/-- The two bytes of a word make the word (70_reset_and_hazards.md R261). -/
theorem append_bytes (w : Word) : ((w >>> 8).setWidth 8 : Byte) ++ (w.setWidth 8 : Byte) = w := by
  apply BitVec.eq_of_getLsbD_eq
  intro i hi
  rw [BitVec.getLsbD_append]
  by_cases h : i < 8
  · simp [h]
  · have h2 : i - 8 < 8 := by omega
    have h3 : 8 + (i - 8) = i := by omega
    simp [h, h2, h3]

/-- Words laid out as bytes are read back as the same words (30_encoding.md R94). -/
@[simp] theorem wordsOfBytes_bytesOfWords (ws : List Word) : wordsOfBytes (bytesOfWords ws) = ws := by
  induction ws with
  | nil => rfl
  | cons w ws ih => simp only [bytesOfWords, wordsOfBytes, ih]; rw [append_bytes w]

theorem low_byte_append (hi lo : Byte) : (hi ++ lo : Word).setWidth 8 = lo := by
  apply BitVec.eq_of_getLsbD_eq
  intro i h
  have := BitVec.getLsbD_append (x := hi) (y := lo) (i := i)
  rw [BitVec.getLsbD_setWidth]
  simp only [h, decide_true, Bool.true_and]
  simpa only [h, if_true] using this

theorem high_byte_append (hi lo : Byte) : ((hi ++ lo : Word) >>> 8).setWidth 8 = hi := by
  apply BitVec.eq_of_getLsbD_eq
  intro i h
  have h3 : 8 + i - 8 = i := by omega
  have := BitVec.getLsbD_append (x := hi) (y := lo) (i := 8 + i)
  rw [BitVec.getLsbD_setWidth, BitVec.getLsbD_ushiftRight]
  simp only [h, decide_true, Bool.true_and]
  rw [if_neg (by omega), h3] at this
  exact this

/-- An even number of bytes is read as words without loss (70_reset_and_hazards.md R261). -/
theorem bytesOfWords_wordsOfBytes : {bs : List Byte} → bs.length % 2 = 0 → bytesOfWords (wordsOfBytes bs) = bs
  | [], _ => rfl
  | [_], h => by simp at h
  | lo :: hi :: rest, h => by
    have h' : rest.length % 2 = 0 := by simp only [List.length_cons] at h; omega
    simp only [wordsOfBytes, bytesOfWords]
    rw [bytesOfWords_wordsOfBytes h']
    congr 1
    · exact low_byte_append hi lo
    · congr 1
      exact high_byte_append hi lo

theorem length_wordsOfBytes : (bs : List Byte) → (wordsOfBytes bs).length = bs.length / 2
  | [] => rfl
  | [_] => by simp [wordsOfBytes]
  | _ :: _ :: rest => by
    simp only [wordsOfBytes, List.length_cons, length_wordsOfBytes rest]
    omega

theorem length_bytesOfWords (ws : List Word) : (bytesOfWords ws).length = 2 * ws.length := by
  induction ws with
  | nil => rfl
  | cons w ws ih => simp only [bytesOfWords, List.length_cons, ih]; omega

/-- An instruction occupies 1 + n words (30_encoding.md R80). -/
theorem length_encode (i : Instr) : (encode i).length = 1 + i.opcount := by
  simp [encode, Instr.opcount, Nat.add_comm]

/-- What a successful decode says of the words: they begin with the instruction's own words. -/
structure Decoded (ws : List Word) (i : Instr) : Prop where
  long : 1 + i.opcount ≤ ws.length
  words : ws.take (1 + i.opcount) = encode i

theorem decodeF1_ok {mk : Operand → Instr} {op : Word} {ws : List Word} {i : Instr} {ρ : Role}
    (hc : ∀ a, (mk a).operands = [(ρ, a)]) (ho : ∀ a, (mk a).opcode = op) (h : decodeF1 mk ws = .ok i) :
    Decoded (op :: ws) i := by
  cases ws with
  | nil => cases h
  | cons a ws =>
    cases h
    constructor <;> simp [Instr.opcount, encode, hc, ho]

theorem decodeF2_ok {mk : Operand → Operand → Instr} {op : Word} {ws : List Word} {i : Instr} {ρ σ : Role}
    (hc : ∀ a b, (mk a b).operands = [(ρ, a), (σ, b)]) (ho : ∀ a b, (mk a b).opcode = op)
    (h : decodeF2 mk ws = .ok i) : Decoded (op :: ws) i := by
  match ws, h with
  | [], h => cases h
  | [_], h => cases h
  | a :: b :: ws, h =>
    cases h
    constructor <;> simp [Instr.opcount, encode, hc, ho]

theorem decodeF3_ok {mk : Operand → Operand → Operand → Instr} {op : Word} {ws : List Word} {i : Instr} {ρ σ τ : Role}
    (hc : ∀ a b c, (mk a b c).operands = [(ρ, a), (σ, b), (τ, c)]) (ho : ∀ a b c, (mk a b c).opcode = op)
    (h : decodeF3 mk ws = .ok i) : Decoded (op :: ws) i := by
  match ws, h with
  | [], h => cases h
  | [_], h => cases h
  | [_, _], h => cases h
  | a :: b :: c :: ws, h =>
    cases h
    constructor <;> simp [Instr.opcount, encode, hc, ho]

theorem decoded_of_ok {ws : List Word} {i : Instr} (h : decodeWords ws = .ok i) : Decoded ws i := by
  cases ws with
  | nil => cases h
  | cons op ws =>
    have key : ∀ n, op.toNat = n → op = BitVec.ofNat 16 n := fun n hn => by rw [← hn]; simp
    simp only [decodeWords, decodeOpcode] at h
    split at h
    case h_23 => cases h
    all_goals
      next hn =>
        have := key _ hn
        subst this
        first
        | exact decodeF1_ok (fun _ => rfl) (fun _ => rfl) h
        | exact decodeF2_ok (fun _ _ => rfl) (fun _ _ => rfl) h
        | exact decodeF3_ok (fun _ _ _ => rfl) (fun _ _ _ => rfl) h
        | (cases h; constructor <;> simp [Instr.opcount, Instr.operands, encode, Instr.opcode])

/-- An unknown opcode is reported by its word, whatever follows (30_encoding.md R87). -/
theorem decodeWords_unknown {op : Word} (ws : List Word) (h : 21 < op.toNat) :
    decodeWords (op :: ws) = .error (.unknownOpcode op) := by
  simp only [decodeWords, decodeOpcode]
  split
  case h_23 => rfl
  all_goals omega

theorem decodeF1_short (mk : Operand → Instr) {ws : List Word} (h : ws.length < 1) :
    decodeF1 mk ws = .error (.missingOperand (ws.length + 1)) := by
  match ws, h with
  | [], _ => rfl

theorem decodeF2_short (mk : Operand → Operand → Instr) {ws : List Word} (h : ws.length < 2) :
    decodeF2 mk ws = .error (.missingOperand (ws.length + 1)) := by
  match ws, h with
  | [], _ => rfl
  | [_], _ => rfl

theorem decodeF3_short (mk : Operand → Operand → Operand → Instr) {ws : List Word} (h : ws.length < 3) :
    decodeF3 mk ws = .error (.missingOperand (ws.length + 1)) := by
  match ws, h with
  | [], _ => rfl
  | [_], _ => rfl
  | [_, _], _ => rfl

/-- When the words end early, the decoder misses the first operand word that is not there (40_execute_loop.md R114). -/
theorem decodeWords_short {i : Instr} {ws : List Word} (h : ws.length < i.opcount) :
    decodeWords (i.opcode :: ws) = .error (.missingOperand (ws.length + 1)) := by
  cases i <;>
    first
    | exact decodeF3_short _ h
    | exact decodeF2_short _ h
    | exact decodeF1_short _ h
    | exact absurd h (Nat.not_lt_zero _)

/-- An instruction has at most three operands (30_encoding.md R80). -/
theorem Instr.opcount_le (i : Instr) : i.opcount ≤ 3 := by cases i <;> simp [Instr.opcount, Instr.operands]

end Sys2Proof
end

