-- ==== Sys2Proof/Laws/Memory.lean ====
section
/-! SUPPORT. The laws of memory: a read after a write, what a write leaves alone, the canonical form kept by every
operation, and that canonical memories are determined by their reads. -/

namespace Sys2Proof.Machine

theorem Memory.wfFrom_mono {m : Memory} {lo lo' : Nat} (h : m.wfFrom lo = true) (hl : lo' ≤ lo) :
    m.wfFrom lo' = true := by
  cases m with
  | nil => rfl
  | cons c m =>
    obtain ⟨q, b⟩ := c
    simp only [Memory.wfFrom, Bool.and_eq_true, decide_eq_true_eq] at h ⊢
    exact ⟨⟨⟨by omega, h.1.1.2⟩, h.1.2⟩, h.2⟩

/-- A byte below every listed address reads as unlisted. -/
theorem Memory.readByte_of_lt {m : Memory} {lo p : Nat} (h : m.wfFrom lo = true) (hp : p < lo) :
    m.readByte p = Memory.unlisted p := by
  induction m generalizing lo with
  | nil => rfl
  | cons c m ih =>
    obtain ⟨q, b⟩ := c
    simp only [Memory.wfFrom, Bool.and_eq_true, decide_eq_true_eq] at h
    have hq : q ≠ p := by omega
    simp only [Memory.readByte, if_neg hq]
    exact ih h.2 (by omega)

theorem Memory.readByte_writeByte_self {m : Memory} {lo p : Nat} (b : Byte) (h : m.wfFrom lo = true) :
    (m.writeByte p b).readByte p = b := by
  induction m generalizing lo with
  | nil =>
    simp only [Memory.writeByte]
    split
    · next hb => simp [Memory.readByte, hb]
    · simp [Memory.readByte]
  | cons c m ih =>
    obtain ⟨q, d⟩ := c
    have h' := h
    simp only [Memory.wfFrom, Bool.and_eq_true, decide_eq_true_eq] at h
    simp only [Memory.writeByte]
    split
    · next hlt =>
      have hq : q ≠ p := by omega
      split
      · next hb => simp only [Memory.readByte, if_neg hq]; rw [hb]; exact readByte_of_lt h.2 (by omega)
      · simp [Memory.readByte]
    · split
      · next hpq =>
        subst hpq
        split
        · next hb => rw [hb]; exact readByte_of_lt h.2 (by omega)
        · simp [Memory.readByte]
      · next hpq =>
        have hq : q ≠ p := fun e => hpq e.symm
        simp only [Memory.readByte, if_neg hq]
        exact ih h.2

theorem Memory.readByte_writeByte_of_ne (m : Memory) {p q : Nat} (b : Byte) (h : q ≠ p) :
    (m.writeByte p b).readByte q = m.readByte q := by
  induction m with
  | nil =>
    simp only [Memory.writeByte]
    split <;> simp [Memory.readByte, Ne.symm h]
  | cons c m ih =>
    obtain ⟨x, d⟩ := c
    simp only [Memory.writeByte]
    split
    · split <;> simp [Memory.readByte, Ne.symm h]
    · split
      · next hpx =>
        subst hpx
        split <;> simp [Memory.readByte, Ne.symm h]
      · simp only [Memory.readByte, ih]

theorem Memory.wfFrom_writeByte {m : Memory} {lo p : Nat} (b : Byte) (h : m.wfFrom lo = true) (hlo : lo ≤ p)
    (hp : p < 65536) : (m.writeByte p b).wfFrom lo = true := by
  induction m generalizing lo with
  | nil =>
    simp only [Memory.writeByte]
    split
    · rfl
    · next hb => simp [Memory.wfFrom, hlo, hp, hb]
  | cons c m ih =>
    obtain ⟨q, d⟩ := c
    have h' := h
    simp only [Memory.wfFrom, Bool.and_eq_true, decide_eq_true_eq] at h
    simp only [Memory.writeByte]
    split
    · next hlt =>
      split
      · exact h'
      · next hb =>
        have hq : p + 1 ≤ q := hlt
        have hq' : q < 65536 := h.1.1.2
        simp [Memory.wfFrom, hlo, hp, hb, hq, hq', h.1.2, h.2]
    · split
      · next hpq =>
        subst hpq
        split
        · exact wfFrom_mono h.2 (by omega)
        · next hb => simp [Memory.wfFrom, hlo, hp, hb, h.2]
      · next hn hpq =>
        have hq' : q < 65536 := h.1.1.2
        have := ih h.2 (by omega)
        simp [Memory.wfFrom, h.1.1.1, hq', h.1.2, this]

/-- Every byte store to an address that exists keeps the canonical form. -/
theorem Memory.wf_writeByte {m : Memory} {p : Nat} (b : Byte) (h : m.wf = true) (hp : p < 65536) :
    (m.writeByte p b).wf = true := wfFrom_writeByte b h (Nat.zero_le _) hp

/-- Every word store to an address that exists keeps the canonical form. -/
theorem Memory.wf_writeWord {m : Memory} {a : Nat} (w : Word) (h : m.wf = true) (ha : a < 32768) :
    (m.writeWord a w).wf = true := wf_writeByte _ (wf_writeByte _ h (by omega)) (by omega)

/-- `MemWrite` keeps the canonical form. -/
theorem Memory.wf_write {m : Memory} (a v : Value) (h : m.wf = true) : (m.write a v).wf = true :=
  wf_writeWord _ h a.isLt

theorem Memory.wf_writeWords {m : Memory} {a : Nat} (ws : List Word) (h : m.wf = true) :
    (m.writeWords a ws).wf = true := by
  induction ws generalizing m a with
  | nil => exact h
  | cons w ws ih =>
    simp only [Memory.writeWords]
    split
    · next ha => exact ih (wf_writeWord w h ha)
    · exact h

theorem Memory.readWord_writeWord_self {m : Memory} {a : Nat} (w : Word) (h : m.wf = true) (ha : a < 32768) :
    (m.writeWord a w).readWord a = w := by
  have h1 : (m.writeByte (2 * a) (w.setWidth 8)).wfFrom 0 = true := wf_writeByte _ h (by omega)
  simp only [Memory.readWord, Memory.writeWord]
  rw [readByte_writeByte_self _ h1, readByte_writeByte_of_ne _ _ (by omega), readByte_writeByte_self _ h]
  exact append_bytes w

theorem Memory.readByte_writeWord_of_ne (m : Memory) {a p : Nat} (w : Word) (h0 : p ≠ 2 * a) (h1 : p ≠ 2 * a + 1) :
    (m.writeWord a w).readByte p = m.readByte p := by
  simp only [Memory.writeWord]
  rw [readByte_writeByte_of_ne _ _ h1, readByte_writeByte_of_ne _ _ h0]

theorem Memory.readWord_writeWord_of_ne (m : Memory) {a a' : Nat} (w : Word) (h : a' ≠ a) :
    (m.writeWord a w).readWord a' = m.readWord a' := by
  simp only [Memory.readWord]
  rw [readByte_writeWord_of_ne _ _ (by omega) (by omega), readByte_writeWord_of_ne _ _ (by omega) (by omega)]

theorem Memory.readWord_write_self {m : Memory} (a v : Value) (h : m.wf = true) :
    (m.write a v).readWord a.toNat = v.toWord := readWord_writeWord_self _ h a.isLt

theorem Memory.readWord_write_of_ne (m : Memory) {a : Nat} (x v : Value) (h : a ≠ x.toNat) :
    (m.write x v).readWord a = m.readWord a := readWord_writeWord_of_ne _ _ h

theorem Memory.readByte_write_of_ne (m : Memory) {p : Nat} (x v : Value) (h0 : p ≠ 2 * x.toNat)
    (h1 : p ≠ 2 * x.toNat + 1) : (m.write x v).readByte p = m.readByte p := readByte_writeWord_of_ne _ _ h0 h1

/-- `MemRead` of an address that exists. -/
theorem Memory.read_of_lt (m : Memory) {a : Nat} (h : a < 32768) : m.read a = some (m.readWord a) := by
  simp [Memory.read, h]

/-- `MemRead` of an address that does not exist. -/
theorem Memory.read_of_ge (m : Memory) {a : Nat} (h : 32768 ≤ a) : m.read a = none := by
  simp [Memory.read, Nat.not_lt.mpr h]

/-- A data read never faults: a value is an address (46_memory_access.md R192). -/
@[simp] theorem Memory.read_value (m : Memory) (v : Value) : m.read v.toNat = some (m.readWord v.toNat) :=
  m.read_of_lt v.isLt

/-- A listed memory is not what it would read as unlisted: two canonical memories that read alike are equal. -/
theorem Memory.eq_of_readByte_eq {m m' : Memory} {lo : Nat} (h : m.wfFrom lo = true) (h' : m'.wfFrom lo = true)
    (hr : ∀ p, p < 65536 → m.readByte p = m'.readByte p) : m = m' := by
  induction m generalizing lo m' with
  | nil =>
    cases m' with
    | nil => rfl
    | cons c m' =>
      obtain ⟨q, b⟩ := c
      simp only [Memory.wfFrom, Bool.and_eq_true, decide_eq_true_eq] at h'
      have := hr q h'.1.1.2
      simp only [Memory.readByte, if_true] at this
      exact absurd this.symm h'.1.2
  | cons c m ih =>
    obtain ⟨q, b⟩ := c
    simp only [Memory.wfFrom, Bool.and_eq_true, decide_eq_true_eq] at h
    cases m' with
    | nil =>
      have := hr q h.1.1.2
      simp only [Memory.readByte, if_true] at this
      exact absurd this h.1.2
    | cons c' m' =>
      obtain ⟨q', b'⟩ := c'
      simp only [Memory.wfFrom, Bool.and_eq_true, decide_eq_true_eq] at h'
      have hqq : q = q' := by
        rcases Nat.lt_trichotomy q q' with hlt | heq | hgt
        · have := hr q h.1.1.2
          have hne : q' ≠ q := by omega
          simp only [Memory.readByte, if_true, if_neg hne] at this
          rw [readByte_of_lt h'.2 (by omega)] at this
          exact absurd this h.1.2
        · exact heq
        · have := hr q' h'.1.1.2
          have hne : q ≠ q' := by omega
          simp only [Memory.readByte, if_true, if_neg hne] at this
          rw [readByte_of_lt h.2 (by omega)] at this
          exact absurd this.symm h'.1.2
      subst hqq
      have hb : b = b' := by
        have := hr q h.1.1.2
        simpa [Memory.readByte] using this
      subst hb
      congr 1
      refine ih h.2 h'.2 fun p hp => ?_
      by_cases hpq : q = p
      · subst hpq
        rw [readByte_of_lt h.2 (by omega), readByte_of_lt h'.2 (by omega)]
      · have := hr p hp
        simpa [Memory.readByte, hpq] using this

/-- What the loaded bytes read as: the bytes themselves, then the padding. -/
theorem Memory.readByte_ofBytes (lo : Nat) (bs : List Byte) {p : Nat} (hp : lo ≤ p) :
    (Memory.ofBytes lo bs).readByte p = (bs[p - lo]?).getD (Memory.unlisted p) := by
  induction bs generalizing lo with
  | nil => simp [Memory.ofBytes, Memory.readByte]
  | cons b bs ih =>
    simp only [Memory.ofBytes]
    by_cases hpl : lo = p
    · subst hpl
      split
      · next hb =>
        have : (Memory.ofBytes (lo + 1) bs).readByte lo = Memory.unlisted lo := by
          clear ih hb hp
          suffices ∀ (bs : List Byte) (l : Nat), lo < l → (Memory.ofBytes l bs).readByte lo = Memory.unlisted lo from
            this bs _ (Nat.lt_succ_self _)
          intro bs
          induction bs with
          | nil => intro l _; rfl
          | cons c bs ih =>
            intro l hl
            have hne : l ≠ lo := by omega
            simp only [Memory.ofBytes]
            split
            · exact ih _ (by omega)
            · simp only [Memory.readByte, if_neg hne]; exact ih _ (by omega)
        rw [this]; simp [hb]
      · simp [Memory.readByte]
    · have h1 : p - lo = (p - (lo + 1)) + 1 := by omega
      have := ih (lo + 1) (by omega)
      split
      · rw [this, h1, List.getElem?_cons_succ]
      · simp only [Memory.readByte, if_neg hpl]
        rw [this, h1, List.getElem?_cons_succ]

theorem Memory.wfFrom_ofBytes {lo : Nat} {bs : List Byte} (h : lo + bs.length ≤ 65536) :
    (Memory.ofBytes lo bs).wfFrom lo = true := by
  induction bs generalizing lo with
  | nil => rfl
  | cons b bs ih =>
    simp only [List.length_cons] at h
    have := ih (lo := lo + 1) (by omega)
    simp only [Memory.ofBytes]
    split
    · exact wfFrom_mono this (by omega)
    · next hb =>
      have hlt : lo < 65536 := by omega
      simp [Memory.wfFrom, hb, this, hlt]

end Sys2Proof.Machine
end

