-- ==== Sys2Proof/Laws/State.lean ====
section
/-! SUPPORT. One lemma per field per update of the state, true by rfl, and the laws of the register file, so that no
later proof unfolds a record update. -/

namespace Sys2Proof.Machine

@[simp] theorem State.setReg_regs (s : State) (r : Reg) (n : Nat) : (s.setReg r n).regs = s.regs.set r (norm15 n) := rfl
@[simp] theorem State.setReg_pc (s : State) (r : Reg) (n : Nat) : (s.setReg r n).pc = s.pc := rfl
@[simp] theorem State.setReg_mem (s : State) (r : Reg) (n : Nat) : (s.setReg r n).mem = s.mem := rfl
@[simp] theorem State.setReg_stack (s : State) (r : Reg) (n : Nat) : (s.setReg r n).stack = s.stack := rfl
@[simp] theorem State.setReg_inq (s : State) (r : Reg) (n : Nat) : (s.setReg r n).inq = s.inq := rfl
@[simp] theorem State.setReg_outs (s : State) (r : Reg) (n : Nat) : (s.setReg r n).outs = s.outs := rfl
@[simp] theorem State.setReg_status (s : State) (r : Reg) (n : Nat) : (s.setReg r n).status = s.status := rfl
@[simp] theorem State.setReg_cycles (s : State) (r : Reg) (n : Nat) : (s.setReg r n).cycles = s.cycles := rfl
@[simp] theorem State.setReg_fault (s : State) (r : Reg) (n : Nat) : (s.setReg r n).fault = s.fault := rfl
@[simp] theorem State.setReg_ceiling (s : State) (r : Reg) (n : Nat) : (s.setReg r n).ceiling = s.ceiling := rfl
@[simp] theorem State.setReg_hostLines (s : State) (r : Reg) (n : Nat) : (s.setReg r n).hostLines = s.hostLines := rfl

@[simp] theorem State.jump_regs (s : State) (t : Word) : (s.jump t).regs = s.regs := rfl
@[simp] theorem State.jump_pc (s : State) (t : Word) : (s.jump t).pc = t := rfl
@[simp] theorem State.jump_mem (s : State) (t : Word) : (s.jump t).mem = s.mem := rfl
@[simp] theorem State.jump_stack (s : State) (t : Word) : (s.jump t).stack = s.stack := rfl
@[simp] theorem State.jump_inq (s : State) (t : Word) : (s.jump t).inq = s.inq := rfl
@[simp] theorem State.jump_outs (s : State) (t : Word) : (s.jump t).outs = s.outs := rfl
@[simp] theorem State.jump_status (s : State) (t : Word) : (s.jump t).status = s.status := rfl
@[simp] theorem State.jump_cycles (s : State) (t : Word) : (s.jump t).cycles = s.cycles := rfl
@[simp] theorem State.jump_fault (s : State) (t : Word) : (s.jump t).fault = s.fault := rfl
@[simp] theorem State.jump_ceiling (s : State) (t : Word) : (s.jump t).ceiling = s.ceiling := rfl
@[simp] theorem State.jump_hostLines (s : State) (t : Word) : (s.jump t).hostLines = s.hostLines := rfl

@[simp] theorem State.advance_regs (s : State) (n : Nat) : (s.advance n).regs = s.regs := rfl
@[simp] theorem State.advance_pc (s : State) (n : Nat) : (s.advance n).pc = s.pc + BitVec.ofNat 16 (1 + n) := rfl
@[simp] theorem State.advance_mem (s : State) (n : Nat) : (s.advance n).mem = s.mem := rfl
@[simp] theorem State.advance_stack (s : State) (n : Nat) : (s.advance n).stack = s.stack := rfl
@[simp] theorem State.advance_inq (s : State) (n : Nat) : (s.advance n).inq = s.inq := rfl
@[simp] theorem State.advance_outs (s : State) (n : Nat) : (s.advance n).outs = s.outs := rfl
@[simp] theorem State.advance_status (s : State) (n : Nat) : (s.advance n).status = s.status := rfl
@[simp] theorem State.advance_cycles (s : State) (n : Nat) : (s.advance n).cycles = s.cycles := rfl
@[simp] theorem State.advance_fault (s : State) (n : Nat) : (s.advance n).fault = s.fault := rfl
@[simp] theorem State.advance_ceiling (s : State) (n : Nat) : (s.advance n).ceiling = s.ceiling := rfl
@[simp] theorem State.advance_hostLines (s : State) (n : Nat) : (s.advance n).hostLines = s.hostLines := rfl

@[simp] theorem State.memWrite_regs (s : State) (a v : Value) : (s.memWrite a v).regs = s.regs := rfl
@[simp] theorem State.memWrite_pc (s : State) (a v : Value) : (s.memWrite a v).pc = s.pc := rfl
@[simp] theorem State.memWrite_mem (s : State) (a v : Value) : (s.memWrite a v).mem = s.mem.write a v := rfl
@[simp] theorem State.memWrite_stack (s : State) (a v : Value) : (s.memWrite a v).stack = s.stack := rfl
@[simp] theorem State.memWrite_inq (s : State) (a v : Value) : (s.memWrite a v).inq = s.inq := rfl
@[simp] theorem State.memWrite_outs (s : State) (a v : Value) : (s.memWrite a v).outs = s.outs := rfl
@[simp] theorem State.memWrite_status (s : State) (a v : Value) : (s.memWrite a v).status = s.status := rfl
@[simp] theorem State.memWrite_cycles (s : State) (a v : Value) : (s.memWrite a v).cycles = s.cycles := rfl
@[simp] theorem State.memWrite_fault (s : State) (a v : Value) : (s.memWrite a v).fault = s.fault := rfl
@[simp] theorem State.memWrite_ceiling (s : State) (a v : Value) : (s.memWrite a v).ceiling = s.ceiling := rfl
@[simp] theorem State.memWrite_hostLines (s : State) (a v : Value) : (s.memWrite a v).hostLines = s.hostLines := rfl

@[simp] theorem State.emit_regs (s : State) (ch : Value) : (s.emit ch).regs = s.regs := rfl
@[simp] theorem State.emit_pc (s : State) (ch : Value) : (s.emit ch).pc = s.pc := rfl
@[simp] theorem State.emit_mem (s : State) (ch : Value) : (s.emit ch).mem = s.mem := rfl
@[simp] theorem State.emit_stack (s : State) (ch : Value) : (s.emit ch).stack = s.stack := rfl
@[simp] theorem State.emit_inq (s : State) (ch : Value) : (s.emit ch).inq = s.inq := rfl
@[simp] theorem State.emit_outs (s : State) (ch : Value) : (s.emit ch).outs = s.outs ++ [ch] := rfl
@[simp] theorem State.emit_status (s : State) (ch : Value) : (s.emit ch).status = s.status := rfl
@[simp] theorem State.emit_cycles (s : State) (ch : Value) : (s.emit ch).cycles = s.cycles := rfl
@[simp] theorem State.emit_fault (s : State) (ch : Value) : (s.emit ch).fault = s.fault := rfl
@[simp] theorem State.emit_ceiling (s : State) (ch : Value) : (s.emit ch).ceiling = s.ceiling := rfl
@[simp] theorem State.emit_hostLines (s : State) (ch : Value) : (s.emit ch).hostLines = s.hostLines := rfl

@[simp] theorem State.raise_regs (s : State) (k : FaultKind) (i : FaultInfo) : (s.raise k i).regs = s.regs := rfl
@[simp] theorem State.raise_pc (s : State) (k : FaultKind) (i : FaultInfo) : (s.raise k i).pc = s.pc := rfl
@[simp] theorem State.raise_mem (s : State) (k : FaultKind) (i : FaultInfo) : (s.raise k i).mem = s.mem := rfl
@[simp] theorem State.raise_stack (s : State) (k : FaultKind) (i : FaultInfo) : (s.raise k i).stack = s.stack := rfl
@[simp] theorem State.raise_inq (s : State) (k : FaultKind) (i : FaultInfo) : (s.raise k i).inq = s.inq := rfl
@[simp] theorem State.raise_outs (s : State) (k : FaultKind) (i : FaultInfo) : (s.raise k i).outs = s.outs := rfl
@[simp] theorem State.raise_status (s : State) (k : FaultKind) (i : FaultInfo) : (s.raise k i).status = .faulted := rfl
@[simp] theorem State.raise_cycles (s : State) (k : FaultKind) (i : FaultInfo) : (s.raise k i).cycles = s.cycles := rfl
@[simp] theorem State.raise_fault (s : State) (k : FaultKind) (i : FaultInfo) : (s.raise k i).fault = some ⟨k, s.pc, i⟩ := rfl
@[simp] theorem State.raise_ceiling (s : State) (k : FaultKind) (i : FaultInfo) : (s.raise k i).ceiling = s.ceiling := rfl
@[simp] theorem State.raise_hostLines (s : State) (k : FaultKind) (i : FaultInfo) : (s.raise k i).hostLines = s.hostLines := rfl

@[simp] theorem State.count_regs (s : State) : (s.count).regs = s.regs := rfl
@[simp] theorem State.count_pc (s : State) : (s.count).pc = s.pc := rfl
@[simp] theorem State.count_mem (s : State) : (s.count).mem = s.mem := rfl
@[simp] theorem State.count_stack (s : State) : (s.count).stack = s.stack := rfl
@[simp] theorem State.count_inq (s : State) : (s.count).inq = s.inq := rfl
@[simp] theorem State.count_outs (s : State) : (s.count).outs = s.outs := rfl
@[simp] theorem State.count_status (s : State) : (s.count).status = s.status := rfl
@[simp] theorem State.count_cycles (s : State) : (s.count).cycles = s.cycles + 1 := rfl
@[simp] theorem State.count_fault (s : State) : (s.count).fault = s.fault := rfl
@[simp] theorem State.count_ceiling (s : State) : (s.count).ceiling = s.ceiling := rfl
@[simp] theorem State.count_hostLines (s : State) : (s.count).hostLines = s.hostLines := rfl

@[simp] theorem State.watchdogStop_regs (s : State) : (s.watchdogStop).regs = s.regs := rfl
@[simp] theorem State.watchdogStop_pc (s : State) : (s.watchdogStop).pc = s.pc := rfl
@[simp] theorem State.watchdogStop_mem (s : State) : (s.watchdogStop).mem = s.mem := rfl
@[simp] theorem State.watchdogStop_stack (s : State) : (s.watchdogStop).stack = s.stack := rfl
@[simp] theorem State.watchdogStop_inq (s : State) : (s.watchdogStop).inq = s.inq := rfl
@[simp] theorem State.watchdogStop_outs (s : State) : (s.watchdogStop).outs = s.outs := rfl
@[simp] theorem State.watchdogStop_status (s : State) : (s.watchdogStop).status = .watchdogStop := rfl
@[simp] theorem State.watchdogStop_cycles (s : State) : (s.watchdogStop).cycles = s.cycles := rfl
@[simp] theorem State.watchdogStop_fault (s : State) : (s.watchdogStop).fault = s.fault := rfl
@[simp] theorem State.watchdogStop_ceiling (s : State) : (s.watchdogStop).ceiling = s.ceiling := rfl
@[simp] theorem State.watchdogStop_hostLines (s : State) : (s.watchdogStop).hostLines = s.hostLines := rfl

@[simp] theorem State.supplyLine_regs (s : State) (l : List Value) : (s.supplyLine l).regs = s.regs := rfl
@[simp] theorem State.supplyLine_pc (s : State) (l : List Value) : (s.supplyLine l).pc = s.pc := rfl
@[simp] theorem State.supplyLine_mem (s : State) (l : List Value) : (s.supplyLine l).mem = s.mem := rfl
@[simp] theorem State.supplyLine_stack (s : State) (l : List Value) : (s.supplyLine l).stack = s.stack := rfl
@[simp] theorem State.supplyLine_inq (s : State) (l : List Value) : (s.supplyLine l).inq = s.inq := rfl
@[simp] theorem State.supplyLine_outs (s : State) (l : List Value) : (s.supplyLine l).outs = s.outs := rfl
@[simp] theorem State.supplyLine_status (s : State) (l : List Value) : (s.supplyLine l).status = s.status := rfl
@[simp] theorem State.supplyLine_cycles (s : State) (l : List Value) : (s.supplyLine l).cycles = s.cycles := rfl
@[simp] theorem State.supplyLine_fault (s : State) (l : List Value) : (s.supplyLine l).fault = s.fault := rfl
@[simp] theorem State.supplyLine_ceiling (s : State) (l : List Value) : (s.supplyLine l).ceiling = s.ceiling := rfl
@[simp] theorem State.supplyLine_hostLines (s : State) (l : List Value) : (s.supplyLine l).hostLines = s.hostLines ++ [l] := rfl

/-- A register reads back what was written. -/
@[simp] theorem Regs.get_set_self (rs : Regs) (r : Reg) (v : Value) : (rs.set r v).get r = v := by cases r <;> rfl

/-- A register write leaves every other register alone. -/
theorem Regs.get_set_of_ne (rs : Regs) {r q : Reg} (v : Value) (h : q ≠ r) : (rs.set r v).get q = rs.get q := by
  cases r <;> cases q <;> first | rfl | exact absurd rfl h

/-- Writing a register's own value back changes nothing. -/
@[simp] theorem Regs.set_get (rs : Regs) (r : Reg) : rs.set r (rs.get r) = rs := by cases r <;> rfl

/-- The later of two writes to one register is the one that counts. -/
@[simp] theorem Regs.set_set (rs : Regs) (r : Reg) (v w : Value) : (rs.set r v).set r w = rs.set r w := by
  cases r <;> rfl

/-- Two register files that read alike are equal. -/
theorem Regs.eq_of_get_eq {rs rs' : Regs} (h : ∀ r, rs.get r = rs'.get r) : rs = rs' := by
  cases rs; cases rs'
  have h0 := h .r0; have h1 := h .r1; have h2 := h .r2; have h3 := h .r3
  have h4 := h .r4; have h5 := h .r5; have h6 := h .r6; have h7 := h .r7
  simp only [Regs.get] at h0 h1 h2 h3 h4 h5 h6 h7
  subst h0 h1 h2 h3 h4 h5 h6 h7
  rfl

/-- `norm15` is the remainder modulo 32768 (00_scope.md R7). -/
theorem norm_toNat (n : Nat) : (norm15 n).toNat = n % 32768 := by simp [norm15, BitVec.toNat_ofNat]

/-- A value is its own normal form (10_state.md R22). -/
@[simp] theorem norm_value (v : Value) : norm15 v.toNat = v := by simp [norm15]

/-- A word stores its low 15 bits (46_memory_access.md R190). -/
theorem norm_word (w : Word) : norm15 w.toNat = w.setWidth 15 := by
  apply BitVec.eq_of_toNat_eq
  simp [norm15]

/-- The 16-bit word of a value is below 32768. -/
theorem Value.toNat_toWord (v : Value) : (v.toWord).toNat = v.toNat := by
  have := v.isLt
  simp [Value.toWord]
  omega

@[simp] theorem norm_toWord (v : Value) : norm15 v.toWord.toNat = v := by rw [Value.toNat_toWord, norm_value]

theorem State.reg_setReg_self (s : State) (r : Reg) (n : Nat) : (s.setReg r n).reg r = norm15 n := by simp [State.reg]

theorem State.reg_setReg_of_ne (s : State) {r q : Reg} (n : Nat) (h : q ≠ r) : (s.setReg r n).reg q = s.reg q := by
  simp [State.reg, Regs.get_set_of_ne _ _ h]

end Sys2Proof.Machine
end

