-- ==== Sys2Proof/Laws/Ops.lean ====
section
/-! SUPPORT. One lemma per shared operation that says everything it can do: the operand resolver, the push and pop of the
stack, the terminal adapter, the watchdog test. -/

namespace Sys2Proof.Machine

@[simp] theorem State.val_lit (s : State) (v : Value) : s.val (.lit v) = some v := rfl
@[simp] theorem State.val_reg (s : State) (r : Reg) : s.val (.reg r) = some (s.reg r) := rfl
@[simp] theorem State.val_invalid (s : State) (w : Word) : s.val (.invalid w) = none := rfl

/-- `val` is defined exactly on what the value role accepts. -/
theorem State.val_isSome (s : State) (w : Operand) : (s.val w).isSome = Role.value.accepts w := by cases w <;> rfl

/-- `dst` is defined exactly on what the destination role accepts. -/
theorem Operand.dst_isSome (w : Operand) : (Operand.dst w).isSome = Role.dest.accepts w := by cases w <;> rfl

/-- A write to a register that an operand does not name does not change its value. -/
theorem State.val_setReg_of_ne (s : State) {r : Reg} {w : Operand} (n : Nat) (h : w ≠ .reg r) :
    (s.setReg r n).val w = s.val w := by
  cases w with
  | lit v => rfl
  | reg q => exact congrArg some (s.reg_setReg_of_ne n fun e => h (by rw [e]))
  | invalid x => rfl

theorem withVal_of_val {s : State} {w : Operand} {v : Value} (h : s.val w = some v) (k : Nat) (f : Value → Result) :
    withVal k w s f = f v := by
  cases w <;> simp_all [withVal]

/-- A value operand goes on with its value, or the operand word is invalid and the fault is taken. -/
theorem withVal_cases (k : Nat) (w : Operand) (s : State) (f : Value → Result) :
    (∃ v, s.val w = some v ∧ withVal k w s f = f v) ∨
      (∃ x, w = .invalid x ∧ withVal k w s f = raise .invalidOperand (.operand k x) s) := by
  cases w with
  | lit v => exact .inl ⟨v, rfl, rfl⟩
  | reg r => exact .inl ⟨s.reg r, rfl, rfl⟩
  | invalid x => exact .inr ⟨x, rfl, rfl⟩

@[simp] theorem withDst_reg (k : Nat) (d : Reg) (s : State) (f : Reg → Result) : withDst k (.reg d) s f = f d := rfl

/-- The meanings go on with exactly the register that `dst` names (40_execute_loop.md R117). -/
theorem withDst_of_dst {a : Operand} {r : Reg} (h : Operand.dst a = some r) (k : Nat) (s : State) (f : Reg → Result) :
    withDst k a s f = f r := by
  cases a <;> simp_all [Operand.dst]

/-- A destination operand goes on with its register, or a fault is taken. -/
theorem withDst_cases (k : Nat) (w : Operand) (s : State) (f : Reg → Result) :
    (∃ d, w = .reg d ∧ withDst k w s f = f d) ∨
      (∃ v, w = .lit v ∧ withDst k w s f = raise .invalidDestination (.operand k v.toWord) s) ∨
      (∃ x, w = .invalid x ∧ withDst k w s f = raise .invalidOperand (.operand k x) s) := by
  cases w with
  | lit v => exact .inr (.inl ⟨v, rfl, rfl⟩)
  | reg r => exact .inl ⟨r, rfl, rfl⟩
  | invalid x => exact .inr (.inr ⟨x, rfl, rfl⟩)

/-- On this hardware a push never fails (10_state.md R28). -/
@[simp] theorem withPush_unbounded (w : Word) (s : State) (k : State → Result) :
    withPush Config.stackCapacity w s k = k { s with stack := w :: s.stack } := rfl

theorem State.popWord_nil {s : State} (h : s.stack = []) : s.popWord = none := by simp [State.popWord, h]

theorem State.popWord_cons {s : State} {w : Word} {rest : List Word} (h : s.stack = w :: rest) :
    s.popWord = some (w, { s with stack := rest }) := by simp [State.popWord, h]

/-- A pop finds the stack empty, or takes its top word and changes nothing else. -/
theorem State.popWord_cases (s : State) :
    (s.stack = [] ∧ s.popWord = none) ∨
      (∃ w rest, s.stack = w :: rest ∧ s.popWord = some (w, { s with stack := rest })) := by
  cases h : s.stack with
  | nil => exact .inl ⟨rfl, State.popWord_nil h⟩
  | cons w rest => exact .inr ⟨w, rest, rfl, State.popWord_cons h⟩

theorem State.nextChar_cons {s : State} {ch : Value} {rest : List Value} (h : s.inq = ch :: rest) :
    s.nextChar = some (ch, { s with inq := rest }) := by simp [State.nextChar, h]

theorem State.nextChar_stall {s : State} (h : s.inq = []) (h' : s.hostLines = []) : s.nextChar = none := by
  simp [State.nextChar, State.refill, h, h']

/-- A refill delivers the first character of the line and queues the rest, the newline last. -/
theorem State.nextChar_refill_cons {s : State} {c : Value} {cs : List Value} {lines : List (List Value)}
    (h : s.inq = []) (h' : s.hostLines = (c :: cs) :: lines) :
    s.nextChar = some (c, { s with inq := cs ++ [Config.newline], hostLines := lines }) := by
  simp [State.nextChar, State.refill, h, h']

/-- The refill by an empty line delivers the newline. -/
theorem State.nextChar_refill_nil {s : State} {lines : List (List Value)} (h : s.inq = [])
    (h' : s.hostLines = [] :: lines) :
    s.nextChar = some (Config.newline, { s with inq := [], hostLines := lines }) := by
  simp [State.nextChar, State.refill, h, h']

/-- The adapter stalls with nothing queued and nothing ready, or delivers one character, and touches nothing but the
queue and the host's lines. -/
theorem State.nextChar_cases (s : State) :
    (s.inq = [] ∧ s.hostLines = [] ∧ s.nextChar = none) ∨
      (∃ ch q ls, s.nextChar = some (ch, { s with inq := q, hostLines := ls })) := by
  cases h : s.inq with
  | cons ch rest => exact .inr ⟨ch, rest, s.hostLines, State.nextChar_cons h⟩
  | nil =>
    cases h' : s.hostLines with
    | nil => exact .inl ⟨rfl, rfl, State.nextChar_stall h h'⟩
    | cons l ls =>
      cases l with
      | nil => exact .inr ⟨Config.newline, [], ls, State.nextChar_refill_nil h h'⟩
      | cons c cs => exact .inr ⟨c, cs ++ [Config.newline], ls, State.nextChar_refill_cons h h'⟩

/-- The watchdog is due exactly when a ceiling is set and reached (40_execute_loop.md R111). -/
theorem State.watchdogDue_iff (s : State) : s.watchdogDue = true ↔ ∃ n, s.ceiling = some n ∧ n ≤ s.cycles := by
  unfold State.watchdogDue
  cases h : s.ceiling <;> simp

end Sys2Proof.Machine
end

