-- ==== Sys2Proof/Laws/Exec.lean ====
section
/-! SUPPORT. What an instruction and a step can do, said once: the invariants and frames over all instructions are read
off `exec_ending` and `step_cases` without unfolding any meaning. -/

namespace Sys2Proof.Machine

/-- What a completing instruction does to the state before it is counted, by kind of state. -/
structure Effect (i : Instr) (s t : State) : Prop where
  status : t.status = s.status
  cycles : t.cycles = s.cycles
  fault : t.fault = s.fault
  ceiling : t.ceiling = s.ceiling
  regs : t.regs = s.regs ∨ ∃ d n, i.destReg = some d ∧ t.regs = s.regs.set d (norm15 n)
  mem : t.mem = s.mem ∨ ∃ a b x y, i = .wmem a b ∧ s.val a = some x ∧ s.val b = some y ∧ t.mem = s.mem.write x y
  stack : t.stack = s.stack ∨ (∃ a v, i = .push a ∧ s.val a = some v ∧ t.stack = v.toWord :: s.stack) ∨
    (∃ a, i = .call a ∧ t.stack = (s.pc + 2) :: s.stack) ∨
    (∃ w, (i = .ret ∨ ∃ a, i = .pop a) ∧ s.stack = w :: t.stack)
  pc : t.pc = s.pc + BitVec.ofNat 16 (1 + i.opcount) ∨ (∃ v : Value, t.pc = v.toWord) ∨ t.pc ∈ s.stack
  outs : t.outs = s.outs ∨ ∃ a v, i = .out a ∧ s.val a = some v ∧ t.outs = s.outs ++ [v]
  input : (t.inq = s.inq ∧ t.hostLines = s.hostLines) ∨ ∃ d, i = .inp (.reg d)

/-- The three ways an instruction that answers a next state ends (00_scope.md R8). The fourth outcome of R8, the stall,
answers none: `State.waitsIn`. -/
inductive Ending (i : Instr) (s : State) : State → Prop where
  | faulted (k : FaultKind) (info : FaultInfo) : Ending i s (s.raise k info)
  | halted (why : HaltReason)
      (h : (i = .halt ∧ why = .byHalt) ∨ (i = .ret ∧ s.stack = [] ∧ why = .byRetEmpty)) :
      Ending i s { s.count with status := .halted why }
  | completed {t : State} (h : Effect i s t) : Ending i s t.count

theorem Effect.setReg_advance {i : Instr} {s : State} {d : Reg} (n : Nat) (hd : i.destReg = some d) :
    Effect i s ((s.setReg d n).advance i.opcount) :=
  ⟨rfl, rfl, rfl, rfl, .inr ⟨d, n, hd, rfl⟩, .inl rfl, .inl rfl, .inl rfl, .inl rfl, .inl ⟨rfl, rfl⟩⟩

theorem Effect.advance (i : Instr) (s : State) : Effect i s (s.advance i.opcount) :=
  ⟨rfl, rfl, rfl, rfl, .inl rfl, .inl rfl, .inl rfl, .inl rfl, .inl rfl, .inl ⟨rfl, rfl⟩⟩

theorem Effect.jump (i : Instr) (s : State) (v : Value) : Effect i s (s.jump v.toWord) :=
  ⟨rfl, rfl, rfl, rfl, .inl rfl, .inl rfl, .inl rfl, .inr (.inl ⟨v, rfl⟩), .inl rfl, .inl ⟨rfl, rfl⟩⟩

theorem ending_writeD1 {i : Instr} {a b : Operand} (hops : i.operands = [(.dest, a), (.value, b)]) (s : State)
    (f : Value → Nat) : ∃ t, writeD1 a b s f = .next t ∧ Ending i s t := by
  unfold writeD1
  rcases withDst_cases 1 a s (fun d => withVal 2 b s fun x => complete ((s.setReg d (f x)).advance 2)) with
    ⟨d, rfl, h⟩ | ⟨v, -, h⟩ | ⟨x, -, h⟩ <;> rw [h]
  · rcases withVal_cases 2 b s (fun x => complete ((s.setReg d (f x)).advance 2)) with ⟨x, -, h⟩ | ⟨x, -, h⟩ <;> rw [h]
    · have hn : i.opcount = 2 := by simp [Instr.opcount, hops]
      have he : Effect i s ((s.setReg d (f x)).advance 2) := hn ▸ Effect.setReg_advance _ (by simp [Instr.destReg, hops])
      exact ⟨_, rfl, .completed he⟩
    · exact ⟨_, rfl, .faulted _ _⟩
  · exact ⟨_, rfl, .faulted _ _⟩
  · exact ⟨_, rfl, .faulted _ _⟩

theorem ending_writeD2 {i : Instr} {a b c : Operand} (hops : i.operands = [(.dest, a), (.value, b), (.value, c)])
    (s : State) (f : Value → Value → Nat) : ∃ t, writeD2 a b c s f = .next t ∧ Ending i s t := by
  unfold writeD2
  cases a with
  | lit v => exact ⟨_, rfl, .faulted _ _⟩
  | invalid x => exact ⟨_, rfl, .faulted _ _⟩
  | reg d =>
    rw [withDst_reg]
    rcases withVal_cases 2 b s (fun x => withVal 3 c s fun y => complete ((s.setReg d (f x y)).advance 3)) with
      ⟨x, -, h⟩ | ⟨x, -, h⟩ <;> rw [h]
    · rcases withVal_cases 3 c s (fun y => complete ((s.setReg d (f x y)).advance 3)) with ⟨y, -, h⟩ | ⟨y, -, h⟩ <;>
        rw [h]
      · have hn : i.opcount = 3 := by simp [Instr.opcount, hops]
        have he : Effect i s ((s.setReg d (f x y)).advance 3) :=
          hn ▸ Effect.setReg_advance _ (by simp [Instr.destReg, hops])
        exact ⟨_, rfl, .completed he⟩
      · exact ⟨_, rfl, .faulted _ _⟩
    · exact ⟨_, rfl, .faulted _ _⟩

/-- A value operand followed by a body that ends well whatever the value. -/
theorem ending_withVal {i : Instr} {s : State} (k : Nat) (w : Operand) {f : Value → Result}
    (hf : ∀ v, s.val w = some v → ∃ t, f v = .next t ∧ Ending i s t) : ∃ t, withVal k w s f = .next t ∧ Ending i s t := by
  rcases withVal_cases k w s f with ⟨v, hv, h⟩ | ⟨x, -, h⟩ <;> rw [h]
  · exact hf v hv
  · exact ⟨_, rfl, .faulted _ _⟩

/-- A destination operand followed by a body that ends well whatever the register. -/
theorem ending_withDst {i : Instr} {s : State} (k : Nat) (w : Operand) {f : Reg → Result}
    (hf : ∀ d, w = .reg d → ∃ t, f d = .next t ∧ Ending i s t) : ∃ t, withDst k w s f = .next t ∧ Ending i s t := by
  rcases withDst_cases k w s f with ⟨d, hd, h⟩ | ⟨v, -, h⟩ | ⟨x, -, h⟩ <;> rw [h]
  · exact hf d hd
  · exact ⟨_, rfl, .faulted _ _⟩
  · exact ⟨_, rfl, .faulted _ _⟩

/-- `exec` of a waiting `in` is the stall. -/
theorem exec_of_waitsIn {i : Instr} {s : State} (h : s.waitsIn i) : exec i s = .fault .stalled := by
  obtain ⟨⟨d, rfl⟩, hq, hl⟩ := h
  simp [exec, execIn, State.nextChar_stall hq hl, stall]

/-- Every instruction that does not wait answers a next state, in one of the three ways of `Ending`. -/
theorem exec_ending {i : Instr} {s : State} (hw : ¬ s.waitsIn i) : ∃ t, exec i s = .next t ∧ Ending i s t := by
  cases i with
  | halt => exact ⟨_, rfl, .halted _ (.inl ⟨rfl, rfl⟩)⟩
  | set a b => exact ending_writeD1 rfl s _
  | push a =>
    exact ending_withVal _ _ fun v hv => ⟨_, rfl, .completed ⟨rfl, rfl, rfl, rfl, .inl rfl, .inl rfl,
      .inr (.inl ⟨a, v, rfl, hv, rfl⟩), .inl rfl, .inl rfl, .inl ⟨rfl, rfl⟩⟩⟩
  | pop a =>
    refine ending_withDst _ _ fun d hd => ?_
    rcases s.popWord_cases with ⟨-, h⟩ | ⟨w, rest, hs, h⟩ <;> rw [h]
    · exact ⟨_, rfl, .faulted _ _⟩
    · exact ⟨_, rfl, .completed ⟨rfl, rfl, rfl, rfl, .inr ⟨d, w.toNat, by simp [Instr.destReg, Instr.operands, hd], rfl⟩,
        .inl rfl, .inr (.inr (.inr ⟨w, .inr ⟨a, rfl⟩, hs⟩)), .inl rfl, .inl rfl, .inl ⟨rfl, rfl⟩⟩⟩
  | eq a b c => exact ending_writeD2 rfl s _
  | gt a b c => exact ending_writeD2 rfl s _
  | jmp a => exact ending_withVal _ _ fun v _ => ⟨_, rfl, .completed (Effect.jump _ s v)⟩
  | jt a b =>
    refine ending_withVal _ _ fun x _ => ending_withVal _ _ fun t _ => ⟨_, rfl, ?_⟩
    split
    · exact .completed (Effect.jump _ s t)
    · exact .completed (Effect.advance (.jt a b) s)
  | jf a b =>
    refine ending_withVal _ _ fun x _ => ending_withVal _ _ fun t _ => ⟨_, rfl, ?_⟩
    split
    · exact .completed (Effect.advance (.jf a b) s)
    · exact .completed (Effect.jump _ s t)
  | add a b c => exact ending_writeD2 rfl s _
  | mult a b c => exact ending_writeD2 rfl s _
  | mod a b c =>
    refine ending_withDst _ _ fun d hd => ending_withVal _ _ fun x _ => ending_withVal _ _ fun y _ => ?_
    split
    · exact ⟨_, rfl, .faulted _ _⟩
    · exact ⟨_, rfl, .completed (Effect.setReg_advance (i := .mod a b c) _ (by simp [Instr.destReg, Instr.operands, hd]))⟩
  | and a b c => exact ending_writeD2 rfl s _
  | or a b c => exact ending_writeD2 rfl s _
  | not a b => exact ending_writeD1 rfl s _
  | rmem a b =>
    refine ending_withDst _ _ fun d hd => ending_withVal _ _ fun x _ => ?_
    rw [Memory.read_value]
    exact ⟨_, rfl, .completed (Effect.setReg_advance (i := .rmem a b) _ (by simp [Instr.destReg, Instr.operands, hd]))⟩
  | wmem a b =>
    refine ending_withVal _ _ fun x hx => ending_withVal _ _ fun y hy => ⟨_, rfl, .completed ?_⟩
    exact ⟨rfl, rfl, rfl, rfl, .inl rfl, .inr ⟨a, b, x, y, rfl, hx, hy, rfl⟩, .inl rfl, .inl rfl, .inl rfl,
      .inl ⟨rfl, rfl⟩⟩
  | call a =>
    exact ending_withVal _ _ fun v _ => ⟨_, rfl, .completed ⟨rfl, rfl, rfl, rfl, .inl rfl, .inl rfl,
      .inr (.inr (.inl ⟨a, rfl, rfl⟩)), .inr (.inl ⟨v, rfl⟩), .inl rfl, .inl ⟨rfl, rfl⟩⟩⟩
  | ret =>
    change ∃ t, execRet s = .next t ∧ _
    unfold execRet
    rcases s.popWord_cases with ⟨hs, h⟩ | ⟨w, rest, hs, h⟩ <;> rw [h]
    · exact ⟨_, rfl, .halted _ (.inr ⟨rfl, hs, rfl⟩)⟩
    · exact ⟨_, rfl, .completed ⟨rfl, rfl, rfl, rfl, .inl rfl, .inl rfl, .inr (.inr (.inr ⟨w, .inl rfl, hs⟩)),
        .inr (.inr (by simp [hs])), .inl rfl, .inl ⟨rfl, rfl⟩⟩⟩
  | out a =>
    exact ending_withVal _ _ fun v hv => ⟨_, rfl, .completed ⟨rfl, rfl, rfl, rfl, .inl rfl, .inl rfl, .inl rfl, .inl rfl,
      .inr ⟨a, v, rfl, hv, rfl⟩, .inl ⟨rfl, rfl⟩⟩⟩
  | inp a =>
    refine ending_withDst _ _ fun d hd => ?_
    rcases s.nextChar_cases with ⟨hq, hl, h⟩ | ⟨ch, q, ls, h⟩ <;> rw [h]
    · exact absurd ⟨⟨d, by rw [hd]⟩, hq, hl⟩ hw
    · exact ⟨_, rfl, .completed ⟨rfl, rfl, rfl, rfl, .inr ⟨d, ch.toNat, by simp [Instr.destReg, Instr.operands, hd], rfl⟩,
        .inl rfl, .inl rfl, .inl rfl, .inl rfl, .inr ⟨d, by rw [hd]⟩⟩⟩
  | noop => exact ⟨_, rfl, .completed (Effect.advance .noop s)⟩

/-- If an instruction answers t, then it did not wait and t is one of the three endings. -/
theorem ending_of_exec {i : Instr} {s t : State} (h : exec i s = .next t) : Ending i s t := by
  have hw : ¬ s.waitsIn i := fun hw => by rw [exec_of_waitsIn hw] at h; cases h
  obtain ⟨u, hu, he⟩ := exec_ending hw
  rw [h] at hu
  cases hu
  exact he

/-- Everything a step that answers a next state can have been. -/
theorem step_cases {s t : State} (h : step s = .next t) :
    s.status = .running ∧
      ((s.watchdogDue = true ∧ t = s.watchdogStop) ∨
        (s.watchdogDue = false ∧
          ((∃ e, s.fetch = .error e ∧ ∃ k info, fetchFault s e = .next (s.raise k info) ∧ t = s.raise k info) ∨
            ∃ i, s.fetch = .ok i ∧ exec i s = .next t ∧ Ending i s t))) := by
  unfold step at h
  split at h
  · next hr =>
    refine ⟨hr, ?_⟩
    unfold runCycle at h
    split at h
    · next hw => cases h; exact .inl ⟨hw, rfl⟩
    · next hw =>
      refine .inr ⟨by simpa using hw, ?_⟩
      split at h
      · next e he =>
        refine .inl ⟨e, he, ?_⟩
        cases e <;> (simp only [fetchFault, raise] at h ⊢; cases h; exact ⟨_, _, rfl, rfl⟩)
      · next i hi => exact .inr ⟨i, hi, h, ending_of_exec h⟩
  · cases h

/-- A running machine has a next state, or it waits inside an `in`. -/
theorem step_running {s : State} (h : s.status = .running) (hw : ¬ s.stalled) : ∃ t, step s = .next t := by
  unfold step runCycle
  rw [if_pos h]
  split
  · exact ⟨_, rfl⟩
  · next hd =>
    split
    · next e _ => cases e <;> exact ⟨_, rfl⟩
    · next i hi =>
      obtain ⟨t, ht, -⟩ := exec_ending fun h' => hw ⟨h, by simpa using hd, i, hi, h'⟩
      exact ⟨t, ht⟩

/-- The step of a stalled machine is the stall. -/
theorem step_of_stalled {s : State} (h : s.stalled) : step s = .fault .stalled := by
  obtain ⟨hr, hd, i, hf, hw⟩ := h
  unfold step runCycle
  rw [if_pos hr, hd, hf]
  exact exec_of_waitsIn hw

end Sys2Proof.Machine
end

