-- ==== Sys2Proof/Laws/Fetch.lean ====
section
/-! SUPPORT. What the fetch finds: the words at pc, how far they reach, and that a fetched instruction lies wholly in
memory (40_execute_loop.md R112, R114). -/

namespace Sys2Proof.Machine

theorem Memory.length_wordsAt (m : Memory) (a n : Nat) : (m.wordsAt a n).length = min n (32768 - a) := by
  induction n generalizing a with
  | zero => simp [Memory.wordsAt]
  | succ n ih =>
    by_cases h : a < 32768
    · simp only [Memory.wordsAt, Memory.read_of_lt m h, List.length_cons, ih]
      omega
    · simp only [Memory.wordsAt, Memory.read_of_ge m (Nat.not_lt.mp h), List.length_nil]
      omega

/-- The opcode word is at pc. -/
theorem State.codeWords_of_read {s : State} {w : Word} (h : s.mem.read s.pc.toNat = some w) :
    s.codeWords = w :: s.mem.wordsAt (s.pc.toNat + 1) 3 := by
  simp [State.codeWords, Memory.wordsAt, h]

/-- With pc beyond memory there is nothing to fetch. -/
theorem State.codeWords_of_ge {s : State} (h : 32768 ≤ s.pc.toNat) : s.codeWords = [] := by
  simp [State.codeWords, Memory.wordsAt, Memory.read_of_ge _ h]

/-- Words stored one after the other are read back in that order, and nothing before them changes. -/
theorem Memory.wordsAt_writeWords {m : Memory} {a : Nat} (ws : List Word) (hwf : m.wf = true)
    (h : a + ws.length ≤ 32768) :
    (m.writeWords a ws).wordsAt a ws.length = ws ∧ ∀ b, b < a → (m.writeWords a ws).readWord b = m.readWord b := by
  induction ws generalizing m a with
  | nil => exact ⟨rfl, fun _ _ => rfl⟩
  | cons w ws ih =>
    simp only [List.length_cons] at h ⊢
    have ha : a < 32768 := by omega
    simp only [Memory.writeWords, Config.memWords, ha, if_true]
    obtain ⟨h1, h2⟩ := ih (m := m.writeWord a w) (a := a + 1) (Memory.wf_writeWord w hwf ha) (by omega)
    refine ⟨?_, fun b hb => by rw [h2 b (by omega), Memory.readWord_writeWord_of_ne _ _ (by omega)]⟩
    simp only [Memory.wordsAt, Memory.read_of_lt _ ha, h1]
    rw [h2 a (by omega), Memory.readWord_writeWord_self _ hwf ha]

/-- A running machine below its ceiling whose fetch fails takes the fetch's fault. -/
theorem step_of_fetch_error {s : State} {e : DecodeError} (hr : s.status = .running) (hw : s.watchdogDue = false)
    (h : s.fetch = .error e) : step s = fetchFault s e := by
  unfold step runCycle
  rw [if_pos hr, hw, h]
  rfl

/-- A fetched instruction lies wholly in memory: pc + n is at most 32767 (40_execute_loop.md R114). -/
theorem State.fetch_fits {s : State} {i : Instr} (h : s.fetch = .ok i) : s.pc.toNat + i.opcount ≤ 32767 := by
  have hl := (decoded_of_ok h).long
  rw [State.codeWords, Memory.length_wordsAt] at hl
  omega

end Sys2Proof.Machine
end

