-- ==== Sys2Proof/Laws/Loader.lean ====
section
/-! SUPPORT. What the loader accepts and refuses, and the state that boot makes of it (70_reset_and_hazards.md R260 to
R263). -/

namespace Sys2Proof.Machine

/-- An image is accepted exactly when it has an even number of bytes, at most 65536. -/
theorem imageError_eq_none (image : List Byte) :
    imageError image = none ↔ image.length % 2 = 0 ∧ image.length ≤ 65536 := by
  unfold imageError
  by_cases h1 : image.length % 2 = 1 <;> by_cases h2 : 65536 < image.length <;> simp [h1, h2] <;> omega

/-- The reason of a refusal says which of the two load errors apply. -/
theorem imageError_eq_some {image : List Byte} {why : ImageError} (h : imageError image = some why) :
    (why = .oddLength ∨ why = .oddLengthAndTooLong ↔ image.length % 2 = 1) ∧
      (why = .tooLong ∨ why = .oddLengthAndTooLong ↔ 65536 < image.length) := by
  unfold imageError at h
  by_cases h1 : image.length % 2 = 1 <;> by_cases h2 : 65536 < image.length <;> simp [h1, h2] at h <;> subst h <;>
    simp [h1, h2]

theorem loadImage_ok {image : List Byte} (h : image.length % 2 = 0) (h' : image.length ≤ 65536) :
    loadImage image = .ok (Memory.ofBytes 0 image) := by
  simp only [loadImage, (imageError_eq_none image).mpr ⟨h, h'⟩, bytesOfWords_wordsOfBytes h]

theorem boot_of_ok {image : List Byte} {m : Memory} (h : loadImage image = .ok m) (c : Option Nat) :
    boot image c = { State.reset with mem := m, ceiling := c } := by
  unfold boot; rw [h]

theorem boot_of_error {image : List Byte} {e : ImageError} (h : loadImage image = .error e) (c : Option Nat) :
    boot image c = { State.reset with status := .loadFailed e, ceiling := c } := by
  unfold boot; rw [h]

/-- Boot makes a running machine of an accepted image, or LoadFailed of a refused one. -/
theorem boot_cases (image : List Byte) (c : Option Nat) :
    (image.length % 2 = 0 ∧ image.length ≤ 65536 ∧
      boot image c = { State.reset with mem := Memory.ofBytes 0 image, ceiling := c }) ∨
    (∃ e, imageError image = some e ∧ boot image c = { State.reset with status := .loadFailed e, ceiling := c }) := by
  cases h : imageError image with
  | none =>
    obtain ⟨h1, h2⟩ := (imageError_eq_none image).mp h
    exact .inl ⟨h1, h2, boot_of_ok (loadImage_ok h1 h2) c⟩
  | some e => exact .inr ⟨e, rfl, boot_of_error (by simp only [loadImage, h]) c⟩

end Sys2Proof.Machine
end

