-- ==== Sys2Proof/Laws/PerInstr.lean ====
section
/-! SUPPORT. Statements about every instruction as syntax, one lemma per constructor. -/

namespace Sys2Proof.Laws.EncodedWords

/-- The words of an instruction: a first word in [0, 21] and then one word per operand, at most four in all
(30_encoding.md R80, R82). -/
def Statement (i : Instr) : Prop :=
  (encode i).length = 1 + i.opcount ∧ (encode i).length ≤ 4 ∧ i.opcode.toNat ≤ 21

theorem statement_of {i : Instr} {n : Fin 4} (hn : i.opcount = n.val) (ho : i.opcode.toNat ≤ 21) : Statement i := by
  have := n.isLt
  have hl := length_encode i
  exact ⟨hl, by omega, ho⟩

theorem halt : Statement .halt := statement_of (n := 0) rfl (by simp [Instr.opcode])
theorem set (a b : Operand) : Statement (.set a b) := statement_of (n := 2) rfl (by simp [Instr.opcode])
theorem push (a : Operand) : Statement (.push a) := statement_of (n := 1) rfl (by simp [Instr.opcode])
theorem pop (a : Operand) : Statement (.pop a) := statement_of (n := 1) rfl (by simp [Instr.opcode])
theorem eq (a b c : Operand) : Statement (.eq a b c) := statement_of (n := 3) rfl (by simp [Instr.opcode])
theorem gt (a b c : Operand) : Statement (.gt a b c) := statement_of (n := 3) rfl (by simp [Instr.opcode])
theorem jmp (a : Operand) : Statement (.jmp a) := statement_of (n := 1) rfl (by simp [Instr.opcode])
theorem jt (a b : Operand) : Statement (.jt a b) := statement_of (n := 2) rfl (by simp [Instr.opcode])
theorem jf (a b : Operand) : Statement (.jf a b) := statement_of (n := 2) rfl (by simp [Instr.opcode])
theorem add (a b c : Operand) : Statement (.add a b c) := statement_of (n := 3) rfl (by simp [Instr.opcode])
theorem mult (a b c : Operand) : Statement (.mult a b c) := statement_of (n := 3) rfl (by simp [Instr.opcode])
theorem mod (a b c : Operand) : Statement (.mod a b c) := statement_of (n := 3) rfl (by simp [Instr.opcode])
theorem and (a b c : Operand) : Statement (.and a b c) := statement_of (n := 3) rfl (by simp [Instr.opcode])
theorem or (a b c : Operand) : Statement (.or a b c) := statement_of (n := 3) rfl (by simp [Instr.opcode])
theorem not (a b : Operand) : Statement (.not a b) := statement_of (n := 2) rfl (by simp [Instr.opcode])
theorem rmem (a b : Operand) : Statement (.rmem a b) := statement_of (n := 2) rfl (by simp [Instr.opcode])
theorem wmem (a b : Operand) : Statement (.wmem a b) := statement_of (n := 2) rfl (by simp [Instr.opcode])
theorem call (a : Operand) : Statement (.call a) := statement_of (n := 1) rfl (by simp [Instr.opcode])
theorem ret : Statement .ret := statement_of (n := 0) rfl (by simp [Instr.opcode])
theorem out (a : Operand) : Statement (.out a) := statement_of (n := 1) rfl (by simp [Instr.opcode])
theorem inp (a : Operand) : Statement (.inp a) := statement_of (n := 1) rfl (by simp [Instr.opcode])
theorem noop : Statement .noop := statement_of (n := 0) rfl (by simp [Instr.opcode])

end Sys2Proof.Laws.EncodedWords
end

