-- ==== Sys2Proof/Laws/Runs.lean ====
section
/-! SUPPORT. Runs step by step: the equations of `steps` and `receive`, and the induction over reachable states, packaged
once. -/

namespace Sys2Proof.Machine

@[simp] theorem steps_zero (s : State) : steps 0 s = some s := rfl

theorem steps_succ_of_next {s u : State} (h : Machine.step s = .next u) (k : Nat) : steps (k + 1) s = steps k u := by
  simp [steps, h]

/-- A run that has ended has no further step (10_state.md R31). -/
theorem steps_succ_of_ended {s : State} (h : s.ended) (k : Nat) : steps (k + 1) s = none := by
  unfold steps Machine.step
  rw [if_neg h]

theorem step_of_fetch_ok {s : State} {i : Instr} (hr : s.status = .running) (hw : s.watchdogDue = false)
    (h : s.fetch = .ok i) : Machine.step s = exec i s := by
  unfold Machine.step runCycle
  rw [if_pos hr, hw, h]
  rfl

theorem receive_succ_of_next {d : Reg} {s t : State} (h : exec (.inp (.reg d)) s = .next t) (n : Nat) :
    receive d (n + 1) s = (receive d n t).map fun p => (t.reg d :: p.1, p.2) := by
  simp [receive, h]

/-- What holds at the start and is kept by every step and by every line the host supplies holds in every reachable
state. -/
theorem Reaches.of_kept {P : State → Prop} {s t : State} (h : Reaches s t) (h0 : P s)
    (hstep : ∀ u v, P u → Machine.step u = .next v → P v) (hline : ∀ u l, P u → P (u.supplyLine l)) : P t := by
  induction h with
  | start => exact h0
  | step _ hs ih => exact hstep _ _ ih hs
  | line l _ ih => exact hline _ l ih

end Sys2Proof.Machine
end

