-- ==== Sys2Proof/Machine/Assembler.lean ====
section
/-! DEFINITION. The notation programs are written in (30_encoding.md R92, R93) and the words it stands for. It is notation
only: nothing the machine does reads it (log 17). -/

namespace Sys2Proof.Machine

/-- The 22 mnemonics with their operand counts, in the order of the opcode numbers (R86). -/
def mnemonics : List (String × Nat) :=
  [("halt", 0), ("set", 2), ("push", 1), ("pop", 1), ("eq", 3), ("gt", 3), ("jmp", 1), ("jt", 2), ("jf", 2),
    ("add", 3), ("mult", 3)] ++
  [("mod", 3), ("and", 3), ("or", 3), ("not", 2), ("rmem", 2), ("wmem", 2), ("call", 1), ("ret", 0), ("out", 1),
    ("in", 1), ("noop", 0)]

/-- An operand as written (R92). -/
inductive AsmOperand where
  /-- a decimal number, 0 to 32767 -/
  | number (v : Value)
  /-- `r0` to `r7` -/
  | register (r : Reg)
  /-- a character literal, standing for its code (48_io.md R214) -/
  | char (code : Value)
  /-- the name of a label -/
  | label (name : String)
  deriving DecidableEq, Repr

/-- A line as written (R92, R93); comments and blank lines stand for nothing. -/
inductive AsmLine where
  /-- a mnemonic with its operands in the order a, b, c -/
  | instr (mnemonic : String) (operands : List AsmOperand)
  /-- `.word n` -/
  | word (n : Word)
  /-- `name:` on its own: the address of the next word -/
  | label (name : String)
  /-- `<address>:` before a mnemonic: the address of the next opcode word -/
  | address (a : Nat)
  deriving DecidableEq, Repr

/-- How many words a line stands for: there are no pseudo-instructions (R93). -/
def AsmLine.size : AsmLine → Nat
  | .instr _ ops => 1 + ops.length
  | .word _ => 1
  | .label _ => 0
  | .address _ => 0

/-- The labels of a program with their addresses, the first line standing at address a. -/
def labelsFrom (a : Nat) : List AsmLine → List (String × Nat)
  | [] => []
  | .label name :: rest => (name, a) :: labelsFrom a rest
  | line :: rest => labelsFrom (a + line.size) rest

/-- The operand word of an operand; none for a label that is not defined or lies beyond memory. -/
def AsmOperand.word (labels : List (String × Nat)) : AsmOperand → Option Word
  | .number v => some (Operand.word (.lit v))
  | .register r => some (Operand.word (.reg r))
  | .char code => some (Operand.word (.lit code))
  | .label name =>
    match labels.lookup name with
    | some a => if a < Config.memWords then some (BitVec.ofNat 16 a) else none
    | none => none

/-- The words of an instruction line: the opcode word, then one word per operand; none for an unknown mnemonic or a wrong
number of operands. Roles are not checked: an ill-formed instruction has words too. -/
def instrWords (labels : List (String × Nat)) (mnemonic : String) (ops : List AsmOperand) : Option (List Word) :=
  match mnemonics.findIdx? (fun p => p.1 = mnemonic && p.2 = ops.length) with
  | none => none
  | some k => (ops.mapM (AsmOperand.word labels)).map fun ws => BitVec.ofNat 16 k :: ws

/-- The words of the lines from address a on; an `<address>:` that does not give the address it stands at is refused. -/
def assembleFrom (labels : List (String × Nat)) (a : Nat) : List AsmLine → Option (List Word)
  | [] => some []
  | .label _ :: rest => assembleFrom labels a rest
  | .address n :: rest => if n = a then assembleFrom labels a rest else none
  | .word n :: rest => (assembleFrom labels (a + 1) rest).map fun ws => n :: ws
  | .instr m ops :: rest =>
    match instrWords labels m ops with
    | none => none
    | some ws => (assembleFrom labels (a + 1 + ops.length) rest).map fun ws' => ws ++ ws'

/-- The words of a program that starts at address 0. -/
def assemble (lines : List AsmLine) : Option (List Word) := assembleFrom (labelsFrom 0 lines) 0 lines

/-- The image of a program (30_encoding.md R94). -/
def assembleImage (lines : List AsmLine) : Option (List Byte) := (assemble lines).map bytesOfWords

end Sys2Proof.Machine
end

