-- ==== Sys2Proof/Tests/Slice0.lean ====
section
/-! SUPPORT. Tests: the check on ill-formed terms, a word sequence for every constructor written out from
30_encoding.md, one-step vectors of 95_test_vectors.md, and a witness for the hypotheses of every obligation that has
any. Expected values are the spec's, never the model's own answer. -/

namespace Sys2Proof.Tests

open Sys2Proof Sys2Proof.Machine

/-! ### Helpers -/

/-- The machine after reset with words at addresses 0, 1, ... -/
def prog (ws : List Word) : State := { State.reset with mem := Memory.writeWords [] 0 ws }

/-- The next state of an outcome, if it is one. -/
def after : Result → Option State
  | .next t => some t
  | .fault _ => none
  | .refused _ => none

/-- Whether an outcome is the stall. -/
def stalls : Result → Bool
  | .next _ => false
  | .fault r => decide (r = .stalled)
  | .refused _ => false

/-- The instruction a word sequence decodes to, if any. -/
def decoded (ws : List Word) : Option Instr :=
  match decodeWords ws with
  | .ok i => some i
  | .error _ => none

/-- One step, seen through a projection. -/
def stepSee {α : Type} (s : State) (f : State → α) : Option α := (after (step s)).map f

/-- A state with something in every field, between reset and a stop. -/
def busy : State :=
  { State.reset with regs := ⟨11, 12, 13, 14, 15, 16, 17, 18⟩, pc := 40, stack := [102, 7], inq := [104, 105, 10],
                     outs := [66], cycles := 9, hostLines := [[97], []] }

/-! ### WellFormed refuses ill-formed terms (R88, R89) -/

theorem test_wf_literal_destination_refused : (Instr.set (.lit 3) (.lit 5)).wellFormed = false := by decide
theorem test_wf_invalid_destination_refused : (Instr.pop (.invalid 40000)).wellFormed = false := by decide
theorem test_wf_invalid_value_refused : (Instr.jt (.lit 0) (.invalid 40000)).wellFormed = false := by decide
theorem test_wf_invalid_third_operand_refused :
    (Instr.add (.reg .r0) (.lit 1) (.invalid 32776)).wellFormed = false := by decide
theorem test_wf_wmem_takes_literals : (Instr.wmem (.lit 1000) (.lit 77)).wellFormed = true := by decide

/-! ### Decoding, one word sequence per constructor (R86; operand words R83) -/

theorem test_decode_halt : decoded [0x0000] = some .halt := by decide
theorem test_decode_set : decoded [0x0001, 0x8001, 0x7FFF] = some (.set (.reg .r1) (.lit 32767)) := by decide
theorem test_decode_push : decoded [0x0002, 0x8000] = some (.push (.reg .r0)) := by decide
theorem test_decode_pop : decoded [0x0003, 0x8002] = some (.pop (.reg .r2)) := by decide
theorem test_decode_eq : decoded [0x0004, 0x8000, 0x8001, 5] = some (.eq (.reg .r0) (.reg .r1) (.lit 5)) := by decide
theorem test_decode_gt : decoded [0x0005, 0x8003, 5, 0x8004] = some (.gt (.reg .r3) (.lit 5) (.reg .r4)) := by decide
theorem test_decode_jmp : decoded [0x0006, 0x00C8] = some (.jmp (.lit 200)) := by decide
theorem test_decode_jt : decoded [0x0007, 0x8000, 50] = some (.jt (.reg .r0) (.lit 50)) := by decide
theorem test_decode_jf : decoded [0x0008, 0x8005, 50] = some (.jf (.reg .r5) (.lit 50)) := by decide
theorem test_decode_add : decoded [0x0009, 0x8000, 0x8001, 15] = some (.add (.reg .r0) (.reg .r1) (.lit 15)) := by decide
theorem test_decode_mult : decoded [0x000A, 0x8006, 300, 301] = some (.mult (.reg .r6) (.lit 300) (.lit 301)) := by
  decide
theorem test_decode_mod : decoded [0x000B, 0x8000, 17, 5] = some (.mod (.reg .r0) (.lit 17) (.lit 5)) := by decide
theorem test_decode_and : decoded [0x000C, 0x8007, 12, 10] = some (.and (.reg .r7) (.lit 12) (.lit 10)) := by decide
theorem test_decode_or : decoded [0x000D, 0x8000, 12, 10] = some (.or (.reg .r0) (.lit 12) (.lit 10)) := by decide
theorem test_decode_not : decoded [0x000E, 0x8000, 0x5555] = some (.not (.reg .r0) (.lit 21845)) := by decide
theorem test_decode_rmem : decoded [0x000F, 0x8000, 0x8001] = some (.rmem (.reg .r0) (.reg .r1)) := by decide
theorem test_decode_wmem : decoded [0x0010, 0x8000, 0x8001] = some (.wmem (.reg .r0) (.reg .r1)) := by decide
theorem test_decode_call : decoded [0x0011, 0x01F4] = some (.call (.lit 500)) := by decide
theorem test_decode_ret : decoded [0x0012] = some .ret := by decide
theorem test_decode_out : decoded [0x0013, 65] = some (.out (.lit 65)) := by decide
theorem test_decode_in : decoded [0x0014, 0x8000] = some (.inp (.reg .r0)) := by decide
theorem test_decode_noop : decoded [0x0015] = some .noop := by decide

/-- R87: 22, a register reference and 65535 are no opcodes. -/
theorem test_decode_unknown_opcodes : decoded [22, 0, 0, 0] = none ∧ decoded [32768, 0, 0, 0] = none ∧
    decoded [65535, 0, 0, 0] = none := by decide

/-- R94: image bytes, low byte first; an operand word above 32775 decodes and is refused later. -/
theorem test_decode_bytes : (match decode [0x07, 0x00, 0x00, 0x00, 0x40, 0x9C] with
    | .ok i => some i | .error _ => none) = some (.jt (.lit 0) (.invalid 40000)) := by decide

/-- The host's numbering: a row's opcode word alone, its operand words zero. -/
theorem test_decode_table_words : decodeTableWord 16 21 = some .noop ∧ decodeTableWord 16 19 = some (.out (.lit 0)) ∧
    decodeTableWord 48 0x7FFF80010001 = some (.set (.reg .r1) (.lit 32767)) ∧ decodeTableWord 16 22 = none := by decide

/-! ### One step per row of 95_test_vectors.md part 2 -/

/-- M1. -/
theorem test_set_literal : stepSee (prog [1, 32769, 32767]) (fun t => (t.reg .r1, t.pc, t.cycles)) =
    some (32767, 3, 1) := by decide
/-- M8. -/
theorem test_set_literal_destination_faults :
    stepSee (prog [1, 3, 5]) (fun t => (t.status, t.fault, t.pc, t.cycles, t.reg .r3)) =
      some (.faulted, some ⟨.invalidDestination, 0, .operand 1 3⟩, 0, 0, 0) := by decide
/-- M3. -/
theorem test_push : stepSee ((prog [2, 32768]).setReg .r0 7) (fun t => (t.stack, t.pc)) = some ([7], 2) := by decide
/-- M10. -/
theorem test_push_invalid_operand_faults : stepSee (prog [2, 40000]) (fun t => (t.fault, t.stack)) =
    some (some ⟨.invalidOperand, 0, .operand 1 40000⟩, []) := by decide
/-- M5: the last word in is the first out (the model lists the top first). -/
theorem test_pop_last_in_first_out : stepSee { prog [3, 32768] with stack := [6, 5] }
    (fun t => (t.reg .r0, t.stack, t.pc)) = some (6, [5], 2) := by decide
/-- M9: classification comes before the stack. -/
theorem test_pop_literal_before_underflow : stepSee (prog [3, 5]) (fun t => t.fault) =
    some (some ⟨.invalidDestination, 0, .operand 1 5⟩) := by decide
/-- C3: values are compared, not words. -/
theorem test_eq_compares_values : stepSee ((prog [4, 32768, 32769, 5]).setReg .r1 5) (fun t => (t.reg .r0, t.pc)) =
    some (1, 4) := by decide
/-- C2. -/
theorem test_eq_unequal : stepSee ((prog [4, 32768, 4, 5]).setReg .r0 9) (fun t => t.reg .r0) = some 0 := by decide
/-- C8. -/
theorem test_gt_is_unsigned : stepSee (prog [5, 32768, 32767, 0]) (fun t => (t.reg .r0, t.pc)) = some (1, 4) := by decide
/-- C7. -/
theorem test_gt_of_equal : stepSee ((prog [5, 32768, 4, 4]).setReg .r0 9) (fun t => t.reg .r0) = some 0 := by decide
/-- J2. -/
theorem test_jmp_register : stepSee ((prog [6, 32768]).setReg .r0 300) (fun t => (t.pc, t.cycles)) = some (300, 1) := by
  decide
/-- J3. -/
theorem test_jt_taken : stepSee ((prog [7, 32768, 50]).setReg .r0 3) (fun t => t.pc) = some 50 := by decide
/-- J9: the target is classified although the jump would not be taken. -/
theorem test_jt_classifies_untaken_target : stepSee (prog [7, 0, 40000]) (fun t => (t.fault, t.pc)) =
    some (some ⟨.invalidOperand, 0, .operand 2 40000⟩, 0) := by decide
/-- J5. -/
theorem test_jf_taken : stepSee (prog [8, 32768, 50]) (fun t => t.pc) = some 50 := by decide
/-- J6. -/
theorem test_jf_not_taken : stepSee ((prog [8, 32768, 50]).setReg .r0 3) (fun t => t.pc) = some 3 := by decide
/-- A1. -/
theorem test_add_wraps : stepSee ((prog [9, 32768, 32769, 15]).setReg .r1 32758)
    (fun t => (t.reg .r0, t.pc, t.cycles)) = some (5, 4, 1) := by decide
/-- A4: a source that is the destination is read first. -/
theorem test_add_reads_before_write : stepSee ((prog [9, 32768, 32768, 32768]).setReg .r0 20000)
    (fun t => t.reg .r0) = some 7232 := by decide
/-- A6. -/
theorem test_mult_largest : stepSee (prog [10, 32768, 32767, 32767]) (fun t => t.reg .r0) = some 1 := by decide
/-- A8. -/
theorem test_mult_wraps : stepSee (prog [10, 32768, 181, 182]) (fun t => (t.reg .r0, t.pc)) = some (174, 4) := by decide
/-- A10. -/
theorem test_mod : stepSee (prog [11, 32768, 17, 5]) (fun t => (t.reg .r0, t.pc)) = some (2, 4) := by decide
/-- A13. -/
theorem test_mod_by_zero_faults : stepSee ((prog [11, 32768, 7, 0]).setReg .r0 9)
    (fun t => (t.status, t.fault, t.reg .r0, t.pc, t.cycles)) =
      some (.faulted, some ⟨.modByZero, 0, .nothing⟩, 9, 0, 0) := by decide
/-- B1. -/
theorem test_and : stepSee (prog [12, 32768, 12, 10]) (fun t => (t.reg .r0, t.pc)) = some (8, 4) := by decide
/-- B5. -/
theorem test_or : stepSee (prog [13, 32768, 21845, 10922]) (fun t => (t.reg .r0, t.pc)) = some (32767, 4) := by decide
/-- B6: 15 bits, not 16. -/
theorem test_not_of_zero : stepSee (prog [14, 32768, 0]) (fun t => (t.reg .r0, t.pc)) = some (32767, 3) := by decide
/-- B8. -/
theorem test_not : stepSee (prog [14, 32768, 21845]) (fun t => t.reg .r0) = some 10922 := by decide
/-- L3: the cell at 1 holds 32768, which arrives as 0. -/
theorem test_rmem_normalises : stepSee ((prog [15, 32768, 1]).setReg .r0 5) (fun t => (t.reg .r0, t.pc)) = some (0, 3) := by
  decide
/-- L5. -/
theorem test_rmem_padding : stepSee (prog [15, 32768, 500]) (fun t => t.reg .r0) = some 21 := by decide
/-- L7. -/
theorem test_wmem_registers : stepSee (((prog [16, 32768, 32769]).setReg .r0 300).setReg .r1 9)
    (fun t => (t.mem.readWord 300, t.mem.readWord 301, t.reg .r0, t.pc)) = some (9, 21, 300, 3) := by decide
/-- L8. -/
theorem test_wmem_over_itself : stepSee (prog [16, 0, 21]) (fun t => (t.mem.readWord 0, t.pc)) = some (21, 3) := by
  decide
/-- K1, at address 0. -/
theorem test_call : stepSee (prog [17, 500]) (fun t => (t.stack, t.pc)) = some ([2], 500) := by decide
/-- K6: the return address 32768 is pushed as it is. -/
theorem test_call_at_the_last_address :
    (after (exec (.call (.lit 2)) { State.reset with pc := 32766 })).map (fun t => (t.stack, t.pc)) =
      some ([32768], 2) := by decide
/-- K2. -/
theorem test_ret : stepSee { prog [18] with stack := [102] } (fun t => (t.pc, t.stack)) = some (102, []) := by decide
/-- K3. -/
theorem test_ret_on_empty_stack : stepSee (prog [18]) (fun t => (t.status, t.pc, t.cycles, t.fault)) =
    some (.halted .byRetEmpty, 0, 1, none) := by decide
/-- K4. -/
theorem test_halt : stepSee ((prog [0]).setReg .r0 5) (fun t => (t.status, t.pc, t.cycles, t.reg .r0)) =
    some (.halted .byHalt, 0, 1, 5) := by decide
/-- I1. -/
theorem test_out : stepSee (prog [19, 65]) (fun t => (t.outs, t.pc)) = some ([65], 2) := by decide
/-- R210: characters are appended. -/
theorem test_out_appends : stepSee { prog [19, 65] with outs := [66] } (fun t => t.outs) = some [66, 65] := by decide
/-- I4. -/
theorem test_in_refills : stepSee { prog [20, 32768] with hostLines := [[97]] }
    (fun t => (t.reg .r0, t.inq, t.hostLines, t.pc)) = some (97, [10], [], 2) := by decide
/-- I6; and once the host has a line, the empty one (I5), the same `in` completes. -/
theorem test_in_stalls : stalls (step (prog [20, 32768])) = true ∧
    stepSee ((prog [20, 32768]).supplyLine []) (fun t => (t.reg .r0, t.inq, t.cycles)) = some (10, [], 1) := by decide
/-- K5. -/
theorem test_noop : stepSee (prog [21]) (fun t => (t.pc, t.cycles, t.regs)) =
    some (1, 1, ⟨0, 0, 0, 0, 0, 0, 0, 0⟩) := by decide

/-- K13, K11: an unknown opcode is refused before its operand words are fetched. -/
theorem test_unknown_opcode_faults : stepSee (prog [22]) (fun t => (t.fault, t.cycles)) =
      some (some ⟨.unknownOpcode, 0, .word 22⟩, 0) ∧
    stepSee { prog [] with pc := 32767, mem := [(65534, 22)] } (fun t => (t.fault, t.pc)) =
      some (some ⟨.unknownOpcode, 32767, .word 22⟩, 32767) := by decide
/-- K8, K9, K10: a fetch past the last address. -/
theorem test_fetch_past_the_end_faults : stepSee { prog [] with pc := 32768 } (fun t => t.fault) =
      some (some ⟨.addressOutOfRange, 32768, .address 32768⟩) ∧
    stepSee { prog [] with pc := 32767, mem := [(65534, 2)] } (fun t => (t.fault, t.stack)) =
      some (some ⟨.addressOutOfRange, 32767, .address 32768⟩, []) ∧
    stepSee { prog [] with pc := 32765, mem := [(65530, 11)] } (fun t => t.fault) =
      some (some ⟨.addressOutOfRange, 32765, .address 32768⟩) := by decide
/-- W1, W2. -/
theorem test_watchdog : stepSee (boot [0, 0] (some 0)) (fun t => (t.status, t.cycles, t.pc)) =
      some (.watchdogStop, 0, 0) ∧
    stepSee (boot [0, 0] (some 1)) (fun t => (t.status, t.cycles)) = some (.halted .byHalt, 1) := by decide
/-- R264. -/
theorem test_loader : [0, 1, 2, 3].map (boot [0x01, 0x00, 0x00, 0x80, 0xFF, 0x7F] none).mem.readWord =
      [1, 32768, 32767, 21] ∧
    (boot [0x00] none).status = .loadFailed .oddLength ∧ (boot [0x00, 0x00, 0x00] none).status.code = 5 ∧
    stepSee (boot [0xFF, 0xFF] none) (fun t => t.fault) = some (some ⟨.unknownOpcode, 0, .word 65535⟩) := by decide
/-- Log 1: storing the padding value over another word removes its entries. -/
theorem test_memory_stays_canonical : Memory.write (Memory.write [] 1000 77) 1000 21 = [] := by decide
/-- The word the host places is the one the next step runs. -/
theorem test_placed_word_runs : stepSee (State.reset.withFetchWord 32 0x00410013) (fun t => t.outs) = some [65] := by
  decide

/-- P1: the image of the program as the spec prints it. -/
theorem test_assemble_P1 : assembleImage [.instr "set" [.register .r0, .number 65], .address 3,
      .instr "add" [.register .r0, .register .r0, .number 1], .instr "out" [.register .r0], .address 9,
      .instr "halt" []] =
    some [0x01, 0x00, 0x00, 0x80, 0x41, 0x00, 0x09, 0x00, 0x00, 0x80, 0x00, 0x80, 0x01, 0x00, 0x13, 0x00, 0x00, 0x80,
      0x00, 0x00] := by decide

/-- P4 with its target as a label, and `.word`; a wrong operand count is refused. -/
theorem test_assemble_labels : assemble [.instr "wmem" [.label "stop", .number 0], .instr "noop" [], .instr "noop" [],
      .label "stop", .instr "out" [.char 88], .word 40000] = some [16, 5, 0, 21, 21, 19, 88, 40000] ∧
    assemble [.instr "set" [.number 3]] = none := by decide

/-! ### Witnesses: states and operands that meet the hypotheses of each obligation together -/

theorem test_witness_DecodeOfEncodeIsTheInstruction :
    (Instr.add (.reg .r7) (.lit 32767) (.reg .r0)).wellFormed = true := by decide

theorem test_witness_DecodingDeterminesTheWords :
    decodeWords [2, 7] = .ok (.push (.lit 7)) ∧ decodeWords [2, 7, 99] = .ok (.push (.lit 7)) := ⟨rfl, rfl⟩

/-- Each clause at both ends of its range. -/
theorem test_witness_OperandWordsFallInThreeClasses :
    classify 0 = .lit 0 ∧ classify 32767 = .lit 32767 ∧ classify 32768 = .reg .r0 ∧ classify 32775 = .reg .r7 ∧
      classify 32776 = .invalid 32776 ∧ classify 65535 = .invalid 65535 := by decide

theorem test_witness_OpcodeWordsAreZeroToTwentyOne :
    (21 : Word).toNat ≤ 21 ∧ 3 ≤ [(0 : Word), 0, 0].length ∧ 21 < (22 : Word).toNat := by decide

/-- Both ends of both ranges. -/
theorem test_witness_ValOfALegalOperandWord : (32775 : Word).toNat ≤ 32775 ∧ 32768 ≤ (32768 : Word).toNat ∧
    busy.val (classify 32767) = some 32767 ∧ busy.val (classify 32768) = some 11 ∧
      busy.val (classify 32775) = some 18 ∧
    (after (exec (.add (.reg .r0) (.reg .r0) (.reg .r0)) busy)).map (fun t => t.reg .r0) = some 22 := by decide

/-- Both ends of the range; one that completes, one that faults and one that stalls, none naming its destination as a value;
an opcode with a destination operand and one without. -/
theorem test_witness_DstOfARegisterReference :
    Operand.dst (classify 32768) = some .r0 ∧ Operand.dst (classify 32775) = some .r7 ∧
    (Instr.mod (.reg .r0) (.lit 7) (.reg .r1)).destReg = some .r0 ∧
    (Role.value, Operand.reg .r0) ∉ (Instr.mod (.reg .r0) (.lit 7) (.reg .r1)).operands ∧
    (after (exec (.mod (.reg .r0) (.lit 7) (.reg .r1)) busy)).map (fun t => t.cycles) = some 10 ∧
    (after (exec (.mod (.reg .r0) (.lit 7) (.reg .r1)) State.reset)).map (fun t => t.cycles) = some 0 ∧
    (Instr.inp (.reg .r0)).destReg = some .r0 ∧ stalls (exec (.inp (.reg .r0)) State.reset) = true ∧
    (Instr.inp (.reg .r0)).opcode = 20 ∧ (Instr.wmem (.lit 0) (.lit 0)).opcode = 16 := by decide

theorem test_witness_MemReadIsTheCellOrNothing : Memory.read [] 32767 = some 21 ∧ Memory.read [] 32768 = none ∧
    ({ busy with pc := 32768 } : State).status = .running ∧ ({ busy with pc := 32768 } : State).watchdogDue = false ∧
      32767 < ({ busy with pc := 32768 } : State).pc.toNat := by decide

theorem test_witness_MemWriteStoresTheValueAndNothingElse :
    Memory.wf [(65534, 7)] = true ∧ (0 : Nat) ≠ (32767 : Value).toNat := by decide

theorem test_witness_CanonicalMemoriesThatReadAlikeAreEqual : ∃ m m' : Memory, m.wf = true ∧ m'.wf = true ∧
    ∀ a, a ≤ 32767 → m.readWord a = m'.readWord a := ⟨[(4, 7)], [(4, 7)], by decide, by decide, fun _ _ => rfl⟩

theorem test_witness_RegisterWritesAreNormalised : busy.stack = 102 :: [7] ∧ Reg.r1 ≠ Reg.r0 ∧
    (∃ t, exec (.pop (.reg .r0)) busy = .next t) ∧ busy.val (.lit 1000) = some 1000 ∧
    ∃ t, exec (.rmem (.reg .r0) (.lit 1000)) busy = .next t := ⟨rfl, by decide, ⟨_, rfl⟩, rfl, ⟨_, rfl⟩⟩

/-- Two stores to one cell and one to another. -/
theorem test_witness_ReadReturnsTheLatestWrite : Memory.wf [(4, 7)] = true ∧
    (([(1, 5), (2, 6), (1, 7)] : List (Value × Value)).reverse.find? (fun p => p.1 = 1)) = some (1, 7) := by decide

theorem test_witness_SetCopiesAValue : busy.val (.reg .r3) = some 14 := by decide
theorem test_witness_PushAddsOneWord : busy.val (.lit 32767) = some 32767 := by decide
theorem test_witness_PopTakesTheTopOrUnderflows : busy.stack = 102 :: [7] ∧ State.reset.stack = [] := by decide
theorem test_witness_ComparisonsWriteOneOrZero : busy.val (.reg .r0) = some 11 ∧ busy.val (.lit 11) = some 11 := by
  decide
theorem test_witness_JmpGoesToItsTarget : busy.val (.reg .r7) = some 18 := by decide
theorem test_witness_JtAndJfJumpOnNonZeroAndZero : busy.val (.lit 0) = some 0 ∧ busy.val (.lit 32767) = some 32767 := by
  decide
theorem test_witness_AddAndMultWrapModulo32768 : busy.val (.lit 32767) = some 32767 ∧ busy.val (.reg .r1) = some 12 := by
  decide
/-- Both divisor clauses. -/
theorem test_witness_ModIsTheRemainderOrFaults : busy.val (.reg .r6) = some 17 ∧ busy.val (.lit 1) = some 1 ∧
    busy.val (.lit 0) = some 0 ∧ (1 : Value).toNat ≠ 0 ∧ (0 : Value).toNat = 0 := by decide
theorem test_witness_BitwiseOperationsActOnFifteenBits : busy.val (.lit 21845) = some 21845 ∧
    busy.val (.reg .r2) = some 13 ∧ 14 < 15 := by decide
theorem test_witness_RmemReadsTheAddressedCell : busy.val (.lit 32767) = some 32767 := by decide
theorem test_witness_WmemStoresInTheAddressedCell : busy.val (.reg .r0) = some 11 ∧ busy.val (.lit 77) = some 77 ∧
    busy.mem.wf = true ∧ 0 ≠ 2 * (11 : Value).toNat ∧ 0 ≠ 2 * (11 : Value).toNat + 1 := by decide
theorem test_witness_CallPushesTheReturnAddress : busy.val (.lit 500) = some 500 := by decide
theorem test_witness_RetJumpsOrEndsTheRun : busy.stack = 102 :: [7] ∧ State.reset.stack = [] := by decide
theorem test_witness_HaltEndsTheRun : (∃ t, exec .halt busy = .next t) ∧ (some 1 : Option Nat) ≠ some 0 :=
  ⟨⟨_, rfl⟩, by decide⟩
theorem test_witness_OutAppendsOneCharacter : busy.val (.lit 65) = some 65 := by decide
/-- The three clauses: a queued character, a refill, a stall. -/
theorem test_witness_InDeliversTheNextCharacterOrStalls : busy.inq = 104 :: [105, 10] ∧
    ({ busy with inq := [] } : State).hostLines = [97] :: [[]] ∧ [97] ++ [Config.newline] = 97 :: [10] ∧
    State.reset.inq = [] ∧ State.reset.hostLines = [] := by decide
/-- A line and the empty line. -/
theorem test_witness_RefillTakesExactlyOneLine : (∃ t, exec (.inp (.reg .r0)) busy = .next t) ∧ busy.inq ≠ [] ∧
    (∃ t, exec (.inp (.reg .r0)) { busy with inq := [] } = .next t) ∧
    ∃ t, exec (.inp (.reg .r0)) { busy with inq := [], hostLines := [[]] } = .next t :=
  ⟨⟨_, rfl⟩, by decide, ⟨_, rfl⟩, ⟨_, rfl⟩⟩

/-- Words 0 and 3, with pc at the last address. -/
theorem test_witness_CodeWordsAreTheCellsAtPc :
    ({ busy with pc := 32767 } : State).codeWords[0]? = some 21 ∧
      ({ busy with pc := 32767 } : State).codeWords[3]? = none := by decide

theorem test_witness_StepRunsTheDecodedInstruction : (prog [9, 32768, 32769, 15]).status = .running ∧
    (prog [9, 32768, 32769, 15]).watchdogDue = false ∧
    decoded (prog [9, 32768, 32769, 15]).codeWords = some (.add (.reg .r0) (.reg .r1) (.lit 15)) := by decide

theorem test_witness_PlacedWordIsWhatTheNextStepRuns : busy.mem.wf = true ∧ busy.status = .running ∧
    busy.watchdogDue = false ∧ ({ busy with pc := 32764 } : State).pc.toNat + 3 ≤ 32767 ∧
    decodeTableWord 32 0x00410013 = some (.out (.lit 65)) := by decide

/-- One state for each clause. -/
theorem test_witness_FetchFaultsInPhaseOrder : busy.status = .running ∧ busy.watchdogDue = false ∧
    32767 < ({ busy with pc := 32768 } : State).pc.toNat ∧ (prog [22]).mem.read 0 = some 22 ∧ 21 < (22 : Word).toNat ∧
    Memory.read [(65530, 11)] 32765 = some (Instr.mod (.reg .r0) (.lit 1) (.lit 2)).opcode ∧
    32767 < 32765 + (Instr.mod (.reg .r0) (.lit 1) (.lit 2)).opcount := by decide

/-- At the ceiling, and one below it. -/
theorem test_witness_WatchdogStopsBeforeTheFetch : busy.status = .running ∧
    ({ busy with ceiling := some 9 } : State).ceiling = some 9 ∧ 9 ≤ ({ busy with ceiling := some 9 } : State).cycles ∧
    ({ busy with ceiling := some 10 } : State).cycles < 10 ∧
    (after (step { busy with ceiling := some 10 })).isSome = true := by decide

/-- A running machine that is not stalled, a stalled one, and two that do not run. -/
theorem test_witness_ExactlyTheRunningMachineSteps : busy.status = .running ∧ ¬ busy.stalled ∧
    (prog [20, 32768]).stalled ∧ (boot [0x00] none).status ≠ .running ∧
    ({ busy with status := .watchdogStop } : State).status ≠ .running :=
  ⟨rfl, fun ⟨_, _, _, _, _, hq, _⟩ => absurd hq (by decide), ⟨rfl, by decide, .inp (.reg .r0), rfl, ⟨.r0, rfl⟩, rfl, rfl⟩, by decide, by decide⟩

/-- The second of two misfit operands is not the one reported; the third operand may be the first misfit. -/
theorem test_witness_FirstMisfitOperandIsReported :
    (Instr.add (.lit 0) (.invalid 40000) (.lit 2)).operands[0]? = some (.dest, .lit 0) ∧
    Role.dest.accepts (.lit 0) = false ∧
    (Instr.add (.reg .r0) (.lit 1) (.invalid 32776)).operands[2]? = some (.value, .invalid 32776) ∧
    Role.value.accepts (.invalid 32776) = false ∧ Role.dest.accepts (.reg .r0) = true ∧
    Role.value.accepts (.lit 1) = true := by decide

theorem test_witness_OnlyPopAndModFaultInExecution :
    (Instr.mod (.reg .r0) (.lit 7) (.lit 0)).wellFormed = true ∧ busy.status = .running ∧
    (after (exec (.mod (.reg .r0) (.lit 7) (.lit 0)) busy)).map (fun t => t.status) = some .faulted := by decide

theorem test_witness_FaultEntryChangesOnlyStatusAndRecord :
    stepSee (prog [3, 32768]) (fun t => t.status) = some .faulted := by decide

/-- The two normal stops and the watchdog stop, at the ceiling exactly. -/
theorem test_witness_StopsLeaveEverythingElse :
    stepSee (prog [0]) (fun t => t.status) = some (.halted .byHalt) ∧
    stepSee (prog [18]) (fun t => t.status) = some (.halted .byRetEmpty) ∧
    stepSee { busy with ceiling := some 9 } (fun t => t.status) = some .watchdogStop := by decide

/-- A completion, a normal stop, a fault and a stall. -/
theorem test_witness_CyclesCountCompletedInstructions : busy.status = .running ∧
    (after (exec .noop busy)).map (fun t => t.status) = some .running ∧
    (after (exec .halt busy)).map (fun t => t.status) = some (.halted .byHalt) ∧
    (after (exec (.pop (.reg .r0)) State.reset)).map (fun t => t.status) = some .faulted ∧
    stalls (exec (.inp (.reg .r0)) State.reset) = true := by decide

theorem test_witness_OnlyInCanStall : (prog [20, 32768]).stalled ∧
    stepSee (prog [21]) (fun t => t.status) = some .running :=
  ⟨⟨rfl, by decide, .inp (.reg .r0), rfl, ⟨.r0, rfl⟩, rfl, rfl⟩, by decide⟩

theorem test_witness_OnlyTheDestinationRegisterChanges : (∃ t, exec (.not (.reg .r3) (.reg .r4)) busy = .next t) ∧
    (Instr.not (.reg .r3) (.reg .r4)).destReg ≠ some .r4 ∧ (Instr.call (.lit 5)).destReg = none :=
  ⟨⟨_, rfl⟩, by decide, by decide⟩

/-- A storing form, off its two bytes, and a form that stores nothing. -/
theorem test_witness_OnlyWmemChangesMemory : (∃ t, exec (.wmem (.lit 5) (.lit 0)) busy = .next t) ∧
    busy.val (.lit 5) = some 5 ∧ (9 ≠ 2 * (5 : Value).toNat ∧ 9 ≠ 2 * (5 : Value).toNat + 1) ∧
    ∃ t, exec (.push (.lit 5)) busy = .next t := ⟨⟨_, rfl⟩, rfl, by decide, ⟨_, rfl⟩⟩

theorem test_witness_StackAndTerminalChangeOnlyByTheirInstructions :
    (∃ t, exec (.add (.reg .r0) (.lit 1) (.lit 2)) busy = .next t) ∧
    (after (exec (.mod (.reg .r0) (.lit 7) (.lit 0)) busy)).map (fun t => decide (t.fault ≠ busy.fault)) = some true :=
  ⟨⟨_, rfl⟩, by decide⟩

theorem test_witness_StoresNeverMakeALargeWord : (prog [16, 5, 0]).mem.wf = true ∧
    (after (step (prog [16, 5, 0]))).isSome = true := by decide

/-- A next state and a stall. -/
theorem test_witness_NoInstructionReadsTheCounterOrCeiling : (∃ t, exec (.inp (.reg .r0)) busy = .next t) ∧
    exec (.inp (.reg .r0)) State.reset = .fault .stalled := ⟨⟨_, rfl⟩, rfl⟩

theorem test_busy_inv : busy.Inv where
  mem_wf := rfl
  stack_le := by simp [busy]
  pc_le := by simp [busy]
  fault_iff := by simp [busy, State.reset]
  cycles_le := by simp [busy, State.reset]

theorem test_halted_inv : ({ busy with status := .halted .byHalt } : State).Inv where
  mem_wf := rfl
  stack_le := by simp [busy]
  pc_le := by simp [busy]
  fault_iff := by simp [busy, State.reset]
  cycles_le := by simp [busy, State.reset]

theorem test_witness_EveryStepKeepsTheInvariant : busy.Inv ∧ (after (step busy)).isSome = true :=
  ⟨test_busy_inv, by decide⟩

/-- A run of one step and one supplied line; and a state that has ended. -/
theorem test_witness_ReachableStatesKeepTheInvariantAndGrow : busy.Inv ∧ (∃ t, Reaches busy t ∧ t ≠ busy) ∧
    ({ busy with status := .halted .byHalt } : State).Inv ∧
    Reaches { busy with status := .halted .byHalt } { busy with status := .halted .byHalt } :=
  ⟨test_busy_inv, ⟨busy.supplyLine [65], .line _ .start, by decide⟩,
    test_halted_inv, .start⟩

/-- P7: two steps of the loop `jmp 0` under the ceiling 5. -/
theorem test_witness_WatchdogBoundsEveryRun : ∃ s t : State, s.status = .running ∧ s.ceiling = some 5 ∧ s.cycles ≤ 5 ∧
    steps 2 s = some t ∧ t.status = .running :=
  ⟨boot [6, 0, 0, 0] (some 5), { boot [6, 0, 0, 0] (some 5) with cycles := 2 }, rfl, rfl, by decide, by decide, rfl⟩

/-- Two padding words before the end. -/
theorem test_witness_PaddingRunsToTheEndAndFaults : ∃ s : State, s.status = .running ∧ s.ceiling = none ∧
    s.pc.toNat ≤ 32768 ∧ s.pc.toNat = 32766 ∧ ∀ a, s.pc.toNat ≤ a → a ≤ 32767 → s.mem.readWord a = 21 := by
  refine ⟨{ State.reset with pc := 32766 }, rfl, rfl, by decide, rfl, fun a h h' => ?_⟩
  have h : 32766 ≤ a := h
  obtain rfl | rfl : a = 32766 ∨ a = 32767 := by omega
  all_goals decide

theorem test_witness_RetResumesAfterItsCall : busy.val (.lit 500) = some 500 ∧
    ∃ t, exec (.call (.lit 500)) busy = .next t ∧ t.stack.length = t.stack.length ∧ t.stack.head? = t.stack.head? :=
  ⟨rfl, _, rfl, rfl, rfl⟩

/-- P4: the store hits word 0 of the next instruction; and word 1 of it. -/
theorem test_witness_AStoreIsSeenByTheNextFetch : (prog [16, 3, 0]).mem.wf = true ∧
    (prog [16, 3, 0]).val (.lit 3) = some 3 ∧ (prog [16, 3, 0]).val (.lit 0) = some 0 ∧
    (after (exec (.wmem (.lit 3) (.lit 0)) (prog [16, 3, 0]))).map
      (fun t => (t.pc.toNat, t.status, t.watchdogDue)) = some ((3 : Value).toNat, .running, false) ∧
    (after (exec (.wmem (.lit 4) (.lit 0)) (prog [16, 4, 0]))).map (fun t => t.pc.toNat + 1) =
      some (4 : Value).toNat := by decide

theorem test_witness_ALineIsDeliveredInOrder : ({ busy with inq := [], hostLines := [[97, 98, 99]] } : State).inq = [] ∧
    ({ busy with inq := [], hostLines := [[97, 98, 99]] } : State).hostLines = [[97, 98, 99]] := by decide

/-- A capacity of two is full with two words and not with one. -/
theorem test_witness_AFullStackOverflowsOnlyWithACapacity : 2 ≤ busy.stack.length ∧
    ({ busy with stack := [102] } : State).stack.length < 2 := by decide

/-- Word 1 of an image of two words. -/
theorem test_witness_LoadedWordsAreTheImageBytes : ([0x00, 0x00, 0xFF, 0x7F] : List Byte).length % 2 = 0 ∧
    ([0x00, 0x00, 0xFF, 0x7F] : List Byte).length ≤ 65536 ∧ ([0x00, 0x00, 0xFF, 0x7F] : List Byte)[2 * 1]? = some 0xFF ∧
    ([0x00, 0x00, 0xFF, 0x7F] : List Byte)[2 * 1 + 1]? = some 0x7F := by decide

/-- The first cell after the image. -/
theorem test_witness_AnAcceptedImageIsPaddedAndRuns : ([0x00, 0x00] : List Byte).length % 2 = 0 ∧
    ([0x00, 0x00] : List Byte).length ≤ 65536 ∧ ([0x00, 0x00] : List Byte).length ≤ 2 * 1 := by decide

/-- An odd image, and one two bytes too long. -/
theorem test_witness_ABadImageIsRefused : ([0x00] : List Byte).length % 2 = 1 ∧
    65536 < (List.replicate 65538 (0 : Byte)).length := ⟨rfl, by rw [List.length_replicate]; decide⟩

end Sys2Proof.Tests
end

namespace Sys2Proof.Machine

/-! ## Laws of the state, its invariant and one step (10_state.md)

What each kind of change to the state does to the invariant, and what an instruction or a step can end in, read off
`Effect`, `Ending` and `step_cases`. -/

/-! ### The invariant, one lemma per kind of change -/

/-- An unfaulted machine has no fault record (10_state.md R33). -/
theorem State.Inv.fault_eq_none {s : State} (h : s.Inv) (hs : s.status ≠ .faulted) : s.fault = none :=
  Option.not_isSome_iff_eq_none.mp fun hf => hs (h.fault_iff.mp hf)

theorem State.Inv.raise {s : State} (h : s.Inv) (k : FaultKind) (info : FaultInfo) : (s.raise k info).Inv :=
  ⟨h.mem_wf, h.stack_le, h.pc_le, by simp, h.cycles_le⟩

theorem State.Inv.stopWith {s : State} (h : s.Inv) (hr : s.status = .running) {st : Status} (hst : st ≠ .faulted) :
    ({ s with status := st } : State).Inv :=
  ⟨h.mem_wf, h.stack_le, h.pc_le, by simp [h.fault_eq_none (by simp [hr]), hst], h.cycles_le⟩

/-- Below the ceiling there is room for one more cycle (10_state.md R32). -/
theorem State.Inv.count {s : State} (h : s.Inv) (hw : s.watchdogDue = false) : s.count.Inv where
  mem_wf := h.mem_wf
  stack_le := h.stack_le
  pc_le := h.pc_le
  fault_iff := h.fault_iff
  cycles_le n hn := Nat.not_le.mp fun hle => by simp [s.watchdogDue_iff.mpr ⟨n, hn, hle⟩] at hw

theorem State.Inv.supplyLine {s : State} (h : s.Inv) (l : List Value) : (s.supplyLine l).Inv :=
  ⟨h.mem_wf, h.stack_le, h.pc_le, h.fault_iff, h.cycles_le⟩

/-- The 16-bit sum is the plain one wherever an instruction lies wholly in memory (log 16). -/
theorem pc_add_le {pc : Word} {n : Nat} (h : pc.toNat + n ≤ 32768) : (pc + BitVec.ofNat 16 n).toNat ≤ 32768 := by
  simp only [BitVec.toNat_add, BitVec.toNat_ofNat]
  omega

theorem toWord_le (v : Value) : v.toWord.toNat ≤ 32768 := by
  rw [Value.toNat_toWord]
  exact v.isLt.le

/-- What a completing instruction that lies wholly in memory does to the state keeps the invariant, its count aside. -/
theorem Effect.inv {i : Instr} {s t : State} (e : Effect i s t) (h : s.Inv) (hfit : s.pc.toNat + i.opcount ≤ 32767) :
    t.Inv where
  mem_wf := by
    rcases e.mem with hm | ⟨a, b, x, y, -, -, -, hm⟩ <;> rw [hm]
    · exact h.mem_wf
    · exact Memory.wf_write x y h.mem_wf
  stack_le := by
    rcases e.stack with hs | ⟨a, v, -, -, hs⟩ | ⟨a, rfl, hs⟩ | ⟨w, -, hs⟩
    · rw [hs]
      exact h.stack_le
    · rw [hs]
      exact List.forall_mem_cons.mpr ⟨toWord_le v, h.stack_le⟩
    · have hret : s.pc.toNat + 1 ≤ 32767 := hfit
      rw [hs]
      exact List.forall_mem_cons.mpr ⟨pc_add_le (n := 2) (by omega), h.stack_le⟩
    · exact (List.forall_mem_cons.mp (hs ▸ h.stack_le)).2
  pc_le := by
    rcases e.pc with hp | ⟨v, hp⟩ | hp
    · rw [hp]
      exact pc_add_le (by omega)
    · rw [hp]
      exact toWord_le v
    · exact h.stack_le _ hp
  fault_iff := by rw [e.fault, e.status]; exact h.fault_iff
  cycles_le := by rw [e.ceiling, e.cycles]; exact h.cycles_le

theorem Effect.watchdogDue {i : Instr} {s t : State} (e : Effect i s t) : t.watchdogDue = s.watchdogDue := by
  simp only [State.watchdogDue, e.ceiling, e.cycles]

theorem Ending.inv {i : Instr} {s t : State} (e : Ending i s t) (h : s.Inv) (hr : s.status = .running)
    (hw : s.watchdogDue = false) (hfit : s.pc.toNat + i.opcount ≤ 32767) : t.Inv := by
  cases e with
  | faulted k info => exact h.raise k info
  | halted why _ => exact (h.count hw).stopWith hr (by simp)
  | completed e => exact (e.inv h hfit).count (e.watchdogDue.trans hw)

theorem step_inv {s t : State} (h : s.Inv) (hst : step s = .next t) : t.Inv := by
  obtain ⟨hr, ⟨-, rfl⟩ | ⟨hw, ⟨e, -, k, info, -, rfl⟩ | ⟨i, hf, -, he⟩⟩⟩ := step_cases hst
  · exact h.stopWith hr (by simp)
  · exact h.raise k info
  · exact he.inv h hr hw (State.fetch_fits hf)

/-- Settles O50: `step_cases`, and one lemma on the invariant for each kind of change a step makes. -/
theorem everyStepKeepsTheInvariant : Obligations.EveryStepKeepsTheInvariant :=
  fun _ _ h hst => step_inv h hst

/-! ### What grows along a run -/

/-- t comes later in a run than s: the output extends that of s, the count is not smaller, the ceiling is the same
(10_state.md R30, R32; log 3). -/
structure State.GrowsTo (s t : State) : Prop where
  outs : s.outs <+: t.outs
  cycles : s.cycles ≤ t.cycles
  ceiling : t.ceiling = s.ceiling

theorem State.GrowsTo.refl (s : State) : s.GrowsTo s := ⟨List.prefix_refl _, le_rfl, rfl⟩

theorem State.GrowsTo.trans {s t u : State} (h : s.GrowsTo t) (h' : t.GrowsTo u) : s.GrowsTo u :=
  ⟨h.outs.trans h'.outs, h.cycles.trans h'.cycles, h'.ceiling.trans h.ceiling⟩

theorem Ending.growsTo {i : Instr} {s t : State} (e : Ending i s t) : s.GrowsTo t := by
  cases e with
  | faulted k info => exact ⟨List.prefix_refl _, le_rfl, rfl⟩
  | halted why _ => exact ⟨List.prefix_refl _, Nat.le_succ _, rfl⟩
  | completed e =>
    refine ⟨?_, by simp [e.cycles], e.ceiling⟩
    rcases e.outs with ho | ⟨a, v, -, -, ho⟩ <;> simp [ho]

theorem step_growsTo {s t : State} (hst : step s = .next t) : s.GrowsTo t := by
  obtain ⟨-, ⟨-, rfl⟩ | ⟨-, ⟨e, -, k, info, -, rfl⟩ | ⟨i, -, -, he⟩⟩⟩ := step_cases hst
  · exact ⟨List.prefix_refl _, le_rfl, rfl⟩
  · exact ⟨List.prefix_refl _, le_rfl, rfl⟩
  · exact he.growsTo

theorem Reaches.inv {s t : State} (h : Reaches s t) (hs : s.Inv) : t.Inv :=
  h.of_kept hs (fun _ _ => step_inv) fun _ l hu => hu.supplyLine l

theorem Reaches.growsTo {s t : State} (h : Reaches s t) : s.GrowsTo t :=
  h.of_kept (.refl s) (fun _ _ hu hst => hu.trans (step_growsTo hst)) fun _ _ hu => ⟨hu.outs, hu.cycles, hu.ceiling⟩

/-- From a machine that does not run, only the host moves (10_state.md R31, 70_reset_and_hazards.md R271). -/
theorem Reaches.eq_of_ended {s t : State} (h : Reaches s t) (hs : s.ended) : t = { s with hostLines := t.hostLines } := by
  refine h.of_kept (P := fun u => u = { s with hostLines := u.hostLines }) rfl (fun u v hu hst => ?_) fun u l hu => ?_
  · have hr : u.status = .running := (step_cases hst).1
    rw [hu] at hr
    exact absurd hr hs
  · rw [hu]
    rfl

/-- Settles O51: the three laws of reachable states, each by the induction `Reaches.of_kept`. -/
theorem reachableStatesKeepTheInvariantAndGrow : Obligations.ReachableStatesKeepTheInvariantAndGrow := by
  intro s t hs h
  exact ⟨h.inv hs, h.growsTo.outs, h.growsTo.cycles, h.growsTo.ceiling, h.eq_of_ended⟩

/-! ### A step of a running machine, and the stops -/

/-- Every ending leaves Running or counts one cycle more. -/
theorem Ending.ne {i : Instr} {s t : State} (e : Ending i s t) (hr : s.status = .running) : t ≠ s := by
  intro hts
  have hst := congrArg State.status hts
  have hc := congrArg State.cycles hts
  cases e with
  | faulted k info => simp [hr] at hst
  | halted why _ => simp [hr] at hst
  | completed e => simp [e.cycles] at hc

theorem step_ne {s t : State} (hst : step s = .next t) : t ≠ s := by
  obtain ⟨hr, ⟨-, rfl⟩ | ⟨-, ⟨e, -, k, info, -, rfl⟩ | ⟨i, -, -, he⟩⟩⟩ := step_cases hst
  · exact fun h => by simpa [hr] using congrArg State.status h
  · exact fun h => by simpa [hr] using congrArg State.status h
  · exact he.ne hr

theorem step_of_ended {s : State} (h : s.ended) : step s = .fault .notRunning := if_neg h

/-- Settles O37: `step_running` and `step_ne` for the machine that steps, `step_of_stalled` and `step_of_ended` for those
that do not. -/
theorem exactlyTheRunningMachineSteps : Obligations.ExactlyTheRunningMachineSteps := by
  refine fun s => ⟨fun hr hw => ?_, step_of_stalled, step_of_ended⟩
  obtain ⟨t, ht⟩ := step_running hr hw
  exact ⟨t, ht, step_ne ht⟩

/-- A step is the watchdog stop, or the watchdog is not due and the step ends Running, Faulted or Halted: the loader alone
ends in LoadFailed (10_state.md R31, 40_execute_loop.md R111). -/
theorem step_status_cases {s t : State} (hst : step s = .next t) :
    (s.watchdogDue = true ∧ t = s.watchdogStop) ∨
      (s.watchdogDue = false ∧ (t.status = .running ∨ t.status = .faulted ∨ ∃ why, t.status = .halted why)) := by
  obtain ⟨hr, hw | ⟨hw, ⟨e, -, k, info, -, rfl⟩ | ⟨i, -, -, he⟩⟩⟩ := step_cases hst
  · exact .inl hw
  · exact .inr ⟨hw, .inr (.inl rfl)⟩
  · refine .inr ⟨hw, ?_⟩
    cases he with
    | faulted k info => exact .inr (.inl rfl)
    | halted why _ => exact .inr (.inr ⟨why, rfl⟩)
    | completed e => exact .inl (e.status.trans hr)

/-- A step ends in the watchdog stop exactly when the watchdog is due (40_execute_loop.md R111, D13). -/
theorem step_watchdogStop_iff {s t : State} (hst : step s = .next t) :
    t.status = .watchdogStop ↔ s.watchdogDue = true := by
  rcases step_status_cases hst with ⟨hw, rfl⟩ | ⟨hw, ht | ht | ⟨why, ht⟩⟩
  · simp [hw]
  all_goals simp [hw, ht]

theorem step_eq_watchdogStop {s t : State} (hst : step s = .next t) (ht : t.status = .watchdogStop) :
    t = s.watchdogStop := by
  rcases step_status_cases hst with ⟨-, h⟩ | ⟨hw, -⟩
  · exact h
  · simp [(step_watchdogStop_iff hst).mp ht] at hw

theorem step_status_ne_loadFailed {s t : State} (hst : step s = .next t) (why : ImageError) :
    t.status ≠ .loadFailed why := by
  rcases step_status_cases hst with ⟨-, rfl⟩ | ⟨-, ht | ht | ⟨why', ht⟩⟩
  · simp
  all_goals simp [ht]

/-- A step that ends Halted fetched `halt`, or `ret` with an empty stack, below the ceiling, and changed the status and the
count alone (10_state.md R26, 60_exceptions.md R234; D11, D24). -/
theorem step_halted {s t : State} {why : HaltReason} (hst : step s = .next t) (ht : t.status = .halted why) :
    s.watchdogDue = false ∧ t = { s.count with status := .halted why } ∧
      ((s.fetch = .ok .halt ∧ why = .byHalt) ∨ (s.fetch = .ok .ret ∧ s.stack = [] ∧ why = .byRetEmpty)) := by
  obtain ⟨hr, ⟨-, rfl⟩ | ⟨hw, ⟨e, -, k, info, -, rfl⟩ | ⟨i, hf, -, he⟩⟩⟩ := step_cases hst
  · simp at ht
  · simp at ht
  · cases he with
    | faulted k info => simp at ht
    | completed e => simp [e.status, hr] at ht
    | halted why' hi =>
      obtain rfl : why' = why := by simpa using ht
      refine ⟨hw, rfl, ?_⟩
      rcases hi with ⟨rfl, hwhy⟩ | ⟨rfl, hs, hwhy⟩
      · exact .inl ⟨hf, hwhy⟩
      · exact .inr ⟨hf, hs, hwhy⟩

theorem exec_halt (s : State) : exec .halt s = stop .byHalt s := rfl

theorem exec_ret_of_nil {s : State} (h : s.stack = []) : exec .ret s = stop .byRetEmpty s := by
  simp only [exec, execRet, State.popWord_nil h]

/-- An instruction that stops the run leaves its reason in the status. -/
theorem step_status_of_exec_stop {s t : State} {i : Instr} {why : HaltReason} (hst : step s = .next t)
    (hw : s.watchdogDue = false) (hf : s.fetch = .ok i) (hi : exec i s = stop why s) : t.status = .halted why := by
  rw [step_of_fetch_ok (step_cases hst).1 hw hf, hi] at hst
  cases hst
  rfl

/-- Settles O41: `step_halted` and `step_watchdogStop_iff` say what enters each stop and what it leaves; the converse runs
the stopping instruction. -/
theorem stopsLeaveEverythingElse : Obligations.StopsLeaveEverythingElse := by
  intro s t hst
  refine ⟨⟨fun ht => ?_, fun ⟨hw, hf⟩ => step_status_of_exec_stop hst hw hf (exec_halt s)⟩,
    ⟨fun ht => ?_, fun ⟨hw, hf, hs⟩ => step_status_of_exec_stop hst hw hf (exec_ret_of_nil hs)⟩,
    (step_watchdogStop_iff hst).trans s.watchdogDue_iff, fun why ht => ?_,
    step_eq_watchdogStop hst, step_status_ne_loadFailed hst⟩
  · obtain ⟨hw, -, ⟨hf, -⟩ | ⟨-, -, hwhy⟩⟩ := step_halted hst ht
    · exact ⟨hw, hf⟩
    · cases hwhy
  · obtain ⟨hw, -, ⟨-, hwhy⟩ | ⟨hf, hs, -⟩⟩ := step_halted hst ht
    · cases hwhy
    · exact ⟨hw, hf, hs⟩
  · obtain ⟨-, h, -⟩ := step_halted hst ht
    exact h

/-! ### Frames of an instruction -/

/-- A register that the destination operand does not name keeps its value (10_state.md R24). -/
theorem Ending.reg_of_ne {i : Instr} {s t : State} (e : Ending i s t) {r : Reg} (hr : i.destReg ≠ some r) :
    t.reg r = s.reg r := by
  cases e with
  | faulted k info => rfl
  | halted why _ => rfl
  | completed e =>
    rcases e.regs with hregs | ⟨d, n, hd, hregs⟩
    · simp [State.reg, hregs]
    · have hrd : r ≠ d := fun h => hr (h ▸ hd)
      simp [State.reg, hregs, Regs.get_set_of_ne _ _ hrd]

/-- Settles O44: the register frame of `Effect`. -/
theorem onlyTheDestinationRegisterChanges : Obligations.OnlyTheDestinationRegisterChanges :=
  fun _ _ _ h _ hr => (ending_of_exec h).reg_of_ne hr

/-- Settles O46: a fault and a normal stop touch none of these fields but the fault record; for a completed instruction
each clause is one field of `Effect`. -/
theorem stackAndTerminalChangeOnlyByTheirInstructions :
    Obligations.StackAndTerminalChangeOnlyByTheirInstructions := by
  intro i s t h
  cases ending_of_exec h with
  | faulted k info => exact ⟨fun _ _ _ _ => rfl, fun _ => rfl, fun _ => ⟨rfl, rfl⟩, fun _ => rfl, rfl⟩
  | halted why _ => exact ⟨fun _ _ _ _ => rfl, fun _ => rfl, fun _ => ⟨rfl, rfl⟩, fun hf => absurd rfl hf, rfl⟩
  | completed e =>
    refine ⟨fun hpush hpop hcall hret => ?_, fun hout => ?_, fun hin => ?_, fun hf => absurd e.fault hf, e.ceiling⟩
    · rcases e.stack with hs | ⟨a, v, hi, -⟩ | ⟨a, hi, -⟩ | ⟨w, hi | ⟨a, hi⟩, -⟩
      · exact hs
      · exact absurd hi (hpush a)
      · exact absurd hi (hcall a)
      · exact absurd hi hret
      · exact absurd hi (hpop a)
    · rcases e.outs with ho | ⟨a, v, hi, -⟩
      · exact ho
      · exact absurd hi (hout a)
    · rcases e.input with hq | ⟨d, hi⟩
      · exact hq
      · exact absurd hi (hin _)

/-! ### No instruction reads the counter or the ceiling -/

/-- The state with another cycle count and another ceiling. -/
def State.retime (s : State) (n : Nat) (c : Option Nat) : State := { s with cycles := n, ceiling := c }

theorem State.popWord_retime (s : State) (n : Nat) (c : Option Nat) :
    (s.retime n c).popWord = s.popWord.map fun p => (p.1, p.2.retime n c) := by
  rcases s.popWord_cases with ⟨hs, h⟩ | ⟨w, rest, hs, h⟩
  · rw [h, State.popWord_nil (s := s.retime n c) hs]
    rfl
  · rw [h, State.popWord_cons (s := s.retime n c) hs]
    rfl

theorem State.nextChar_retime (s : State) (n : Nat) (c : Option Nat) :
    (s.retime n c).nextChar = s.nextChar.map fun p => (p.1, p.2.retime n c) := by
  cases hq : s.inq with
  | cons ch rest =>
    rw [State.nextChar_cons hq, State.nextChar_cons (s := s.retime n c) hq]
    rfl
  | nil =>
    cases hl : s.hostLines with
    | nil =>
      rw [State.nextChar_stall hq hl, State.nextChar_stall (s := s.retime n c) hq hl]
      rfl
    | cons line lines =>
      cases line with
      | nil =>
        rw [State.nextChar_refill_nil hq hl, State.nextChar_refill_nil (s := s.retime n c) hq hl]
        rfl
      | cons ch cs =>
        rw [State.nextChar_refill_cons hq hl, State.nextChar_refill_cons (s := s.retime n c) hq hl]
        rfl

/-- The second result is the first one as it is with count n and ceiling c in place of those of the state s it began in:
the same next state, its count advanced by as much, or the same fault. -/
inductive Retimed (s : State) (n : Nat) (c : Option Nat) : Result → Result → Prop where
  | next {t : State} (k : Nat) (hk : t.cycles = s.cycles + k) : Retimed s n c (.next t) (.next (t.retime (n + k) c))
  | fault (φ : Fault) : Retimed s n c (.fault φ) (.fault φ)

section
variable {s t : State} {n : Nat} {c : Option Nat}

theorem Retimed.of_next {r : Result} (h : Retimed s n c (.next t) r) :
    ∃ k, t.cycles = s.cycles + k ∧ r = .next (t.retime (n + k) c) := by
  cases h with
  | next k hk => exact ⟨k, hk, rfl⟩

theorem Retimed.of_fault {r : Result} {φ : Fault} (h : Retimed s n c (.fault φ) r) : r = .fault φ := by
  cases h
  rfl

theorem Retimed.raise (kind : FaultKind) (info : FaultInfo) :
    Retimed s n c (raise kind info s) (raise kind info (s.retime n c)) := .next 0 rfl

theorem Retimed.stop (why : HaltReason) : Retimed s n c (stop why s) (stop why (s.retime n c)) := .next 1 rfl

theorem Retimed.complete (h : t.cycles = s.cycles) :
    Retimed s n c (complete t) (complete (t.retime n c)) := .next 1 (by simp [h])

theorem Retimed.withVal (k : Nat) (w : Operand) {f g : Value → Result} (h : ∀ v, Retimed s n c (f v) (g v)) :
    Retimed s n c (withVal k w s f) (withVal k w (s.retime n c) g) := by
  cases w with
  | lit v => exact h v
  | reg r => exact h (s.reg r)
  | invalid x => exact .raise _ _

theorem Retimed.withDst (k : Nat) (w : Operand) {f g : Reg → Result} (h : ∀ d, Retimed s n c (f d) (g d)) :
    Retimed s n c (withDst k w s f) (withDst k w (s.retime n c) g) := by
  cases w with
  | lit v => exact .raise _ _
  | reg r => exact h r
  | invalid x => exact .raise _ _

theorem Retimed.writeD1 (a b : Operand) (f : Value → Nat) :
    Retimed s n c (writeD1 a b s f) (writeD1 a b (s.retime n c) f) :=
  .withDst _ _ fun _ => .withVal _ _ fun _ => .complete rfl

theorem Retimed.writeD2 (a b c' : Operand) (f : Value → Value → Nat) :
    Retimed s n c (writeD2 a b c' s f) (writeD2 a b c' (s.retime n c) f) :=
  .withDst _ _ fun _ => .withVal _ _ fun _ => .withVal _ _ fun _ => .complete rfl

end

/-- Every meaning goes through the shared operations, and none of these looks at the two fields. -/
theorem exec_retimed (i : Instr) (s : State) (n : Nat) (c : Option Nat) :
    Retimed s n c (exec i s) (exec i (s.retime n c)) := by
  cases i with
  | halt => exact .stop _
  | set a b => exact .writeD1 a b _
  | push a => exact .withVal _ _ fun _ => .complete rfl
  | pop a =>
    refine .withDst _ _ fun d => ?_
    rw [State.popWord_retime]
    rcases s.popWord_cases with ⟨-, h⟩ | ⟨w, rest, -, h⟩ <;> rw [h]
    · exact .raise _ _
    · exact .complete rfl
  | eq a b c => exact .writeD2 a b c _
  | gt a b c => exact .writeD2 a b c _
  | jmp a => exact .withVal _ _ fun _ => .complete rfl
  | jt a b =>
    refine .withVal _ _ fun x => .withVal _ _ fun t => ?_
    cases nonZero x <;> exact .complete rfl
  | jf a b =>
    refine .withVal _ _ fun x => .withVal _ _ fun t => ?_
    cases nonZero x <;> exact .complete rfl
  | add a b c => exact .writeD2 a b c _
  | mult a b c => exact .writeD2 a b c _
  | mod a b c =>
    refine .withDst _ _ fun d => .withVal _ _ fun x => .withVal _ _ fun y => ?_
    split
    · exact .raise _ _
    · exact .complete rfl
  | and a b c => exact .writeD2 a b c _
  | or a b c => exact .writeD2 a b c _
  | not a b => exact .writeD1 a b _
  | rmem a b =>
    refine .withDst _ _ fun d => .withVal _ _ fun x => ?_
    rw [Memory.read_value, Memory.read_value]
    exact .complete rfl
  | wmem a b => exact .withVal _ _ fun _ => .withVal _ _ fun _ => .complete rfl
  | call a => exact .withVal _ _ fun _ => .complete rfl
  | ret =>
    change Retimed s n c (execRet s) (execRet (s.retime n c))
    unfold execRet
    rw [State.popWord_retime]
    rcases s.popWord_cases with ⟨-, h⟩ | ⟨w, rest, -, h⟩ <;> rw [h]
    · exact .stop _
    · exact .complete rfl
  | out a => exact .withVal _ _ fun _ => .complete rfl
  | inp a =>
    refine .withDst _ _ fun d => ?_
    rw [State.nextChar_retime]
    rcases s.nextChar_cases with ⟨-, -, h⟩ | ⟨ch, q, ls, h⟩ <;> rw [h]
    · exact .fault _
    · exact .complete rfl
  | noop => exact .complete rfl

/-- Settles O48: `exec_retimed`, read for a next state and for the stall. -/
theorem noInstructionReadsTheCounterOrCeiling : Obligations.NoInstructionReadsTheCounterOrCeiling :=
  ⟨fun i s _ n c h => (h ▸ exec_retimed i s n c).of_next, fun i s n c _ h => (h ▸ exec_retimed i s n c).of_fault⟩

/-! ### Register writes -/

theorem exec_pop_of_cons {s : State} {w : Word} {rest : List Word} (d : Reg) (h : s.stack = w :: rest) :
    exec (.pop (.reg d)) s = complete ((({ s with stack := rest } : State).setReg d w.toNat).advance 1) := by
  simp only [exec, execPop, withDst_reg, State.popWord_cons h]

theorem exec_rmem_of_val {s : State} {b : Operand} {x : Value} (d : Reg) (h : s.val b = some x) :
    exec (.rmem (.reg d) b) s = complete ((s.setReg d (s.mem.readWord x.toNat).toNat).advance 2) := by
  simp only [exec, execRmem, withDst_reg, withVal_of_val h, Memory.read_value]

/-- A register written last reads as the number written, modulo 32768 (10_state.md R22). -/
theorem State.toNat_reg_setReg_self (s : State) (r : Reg) (n : Nat) : ((s.setReg r n).reg r).toNat = n % 32768 := by
  rw [State.reg_setReg_self, norm_toNat]

/-- Settles O12: the laws of the register file, and for `pop` and `rmem` that the register is what they write last. -/
theorem registerWritesAreNormalised : Obligations.RegisterWritesAreNormalised := by
  refine ⟨fun s r n => ⟨s.toNat_reg_setReg_self r n, fun q hq => s.reg_setReg_of_ne n hq, rfl⟩,
    fun s t d w rest hs h => ?_, fun s t d b x hb h => ?_⟩
  · rw [exec_pop_of_cons d hs] at h
    cases h
    exact State.toNat_reg_setReg_self _ d _
  · rw [exec_rmem_of_val d hb] at h
    cases h
    exact State.toNat_reg_setReg_self _ d _

/-! ### Reset and boot -/

theorem State.reset_inv : State.reset.Inv := ⟨rfl, by simp [State.reset], by decide, by decide, by simp [State.reset]⟩

theorem boot_inv (image : List Byte) (c : Option Nat) : (boot image c).Inv := by
  have hc : ∀ n, c = some n → State.reset.cycles ≤ n := fun n _ => Nat.zero_le n
  rcases boot_cases image c with ⟨-, hlen, h⟩ | ⟨e, -, h⟩ <;> rw [h]
  · have hwf : (Memory.ofBytes 0 image).wf = true := Memory.wfFrom_ofBytes (by omega)
    exact ⟨hwf, State.reset_inv.stack_le, State.reset_inv.pc_le, State.reset_inv.fault_iff, hc⟩
  · exact ⟨State.reset_inv.mem_wf, State.reset_inv.stack_le, State.reset_inv.pc_le, by simp [State.reset], hc⟩

/-- Settles O49: an accepted image loads a canonical memory, and every other field is that of `State.reset`. -/
theorem resetAndBootMeetTheInvariant : Obligations.ResetAndBootMeetTheInvariant :=
  ⟨State.reset_inv, rfl, boot_inv⟩

end Sys2Proof.Machine

namespace Sys2Proof.Machine

/-! ## Memory (20_memory.md)

The word access and the canonical form first, then what an instruction and a step do to memory, read off `Effect`,
`Ending` and `step_cases`, and last what the fetch makes of the words it finds. -/

/-! ### One store, and any list of them -/

/-- Settles O10: the laws of `MemWrite` on the cell, the other cells, the other bytes and the canonical form. -/
theorem memWriteStoresTheValueAndNothingElse : Obligations.MemWriteStoresTheValueAndNothingElse := by
  intro m a v hwf
  have hself : (m.write a v).readWord a.toNat = v.toWord := Memory.readWord_write_self a v hwf
  refine ⟨hself, ?_, fun b hb => m.readWord_write_of_ne a v hb, fun p h0 h1 => m.readByte_write_of_ne a v h0 h1,
    Memory.wf_write a v hwf⟩
  rw [hself, Value.toNat_toWord]

theorem Memory.wf_foldl_write {m : Memory} (ws : List (Value × Value)) (h : m.wf = true) :
    (ws.foldl (fun m p => m.write p.1 p.2) m).wf = true := by
  induction ws generalizing m with
  | nil => exact h
  | cons p ws ih => exact ih (Memory.wf_write p.1 p.2 h)

/-- Settles O13, by induction on the stores from the last one back: the last store decides the cell it names, and the
cells it does not name are decided by the stores before it. -/
theorem readReturnsTheLatestWrite : Obligations.ReadReturnsTheLatestWrite := by
  intro m ws a hwf
  induction ws using List.reverseRecOn with
  | nil => rfl
  | append_singleton ws p ih =>
    simp only [List.foldl_append, List.foldl_cons, List.foldl_nil, List.reverse_append, List.reverse_singleton,
      List.singleton_append, List.find?_cons]
    by_cases hp : p.1 = a
    · subst hp
      simpa using Memory.readWord_write_self p.1 p.2 (Memory.wf_foldl_write ws hwf)
    · have hne : a.toNat ≠ p.1.toNat := fun h => hp (BitVec.eq_of_toNat_eq h.symm)
      simpa [hp, Memory.readWord_write_of_ne _ _ _ hne] using ih

/-! ### Bytes and cells -/

/-- Memories that agree on a cell agree on both of its bytes. -/
theorem Memory.readByte_eq_of_readWord_eq {m m' : Memory} {p : Nat} (h : m.readWord (p / 2) = m'.readWord (p / 2)) :
    m.readByte p = m'.readByte p := by
  simp only [Memory.readWord] at h
  rcases Nat.mod_two_eq_zero_or_one p with hp | hp
  · have hlow := congrArg (BitVec.setWidth 8) h
    rwa [low_byte_append, low_byte_append, show 2 * (p / 2) = p by omega] at hlow
  · have hhigh := congrArg (fun w : Word => (w >>> 8).setWidth 8) h
    simp only [high_byte_append] at hhigh
    rwa [show 2 * (p / 2) + 1 = p by omega] at hhigh

/-- Settles O11: equal cells have equal bytes, and the bytes determine a canonical list. -/
theorem canonicalMemoriesThatReadAlikeAreEqual : Obligations.CanonicalMemoriesThatReadAlikeAreEqual :=
  fun _ _ h h' hr => Memory.eq_of_readByte_eq h h' fun _ hp => Memory.readByte_eq_of_readWord_eq (hr _ (by omega))

/-! ### What an instruction and a step do to memory -/

/-- An instruction leaves memory alone, or it is a `wmem` that made its one store (20_memory.md R55, R58). -/
theorem Ending.mem_cases {i : Instr} {s t : State} (e : Ending i s t) :
    t.mem = s.mem ∨ ∃ a b x y, i = .wmem a b ∧ s.val a = some x ∧ s.val b = some y ∧ t.mem = s.mem.write x y := by
  cases e with
  | faulted k info => exact .inl rfl
  | halted why _ => exact .inl rfl
  | completed e => exact e.mem

/-- A step leaves memory alone or makes one store of a value. -/
theorem step_mem_cases {s t : State} (hst : step s = .next t) :
    t.mem = s.mem ∨ ∃ x y : Value, t.mem = s.mem.write x y := by
  obtain ⟨-, ⟨-, rfl⟩ | ⟨-, ⟨e, -, k, info, -, rfl⟩ | ⟨i, -, -, he⟩⟩⟩ := step_cases hst
  · exact .inl rfl
  · exact .inl rfl
  · rcases he.mem_cases with hm | ⟨a, b, x, y, -, -, -, hm⟩
    · exact .inl hm
    · exact .inr ⟨x, y, hm⟩

/-- Settles O45: the bytes outside the stored cell are the frame of `MemWrite`. -/
theorem onlyWmemChangesMemory : Obligations.OnlyWmemChangesMemory := by
  intro i s t h p hp
  rcases (ending_of_exec h).mem_cases with hm | ⟨a, b, x, y, hi, hx, -, hm⟩ <;> rw [hm]
  obtain ⟨h0, h1⟩ := hp a b x hi hx
  exact s.mem.readByte_write_of_ne x y h0 h1

/-- Settles O47: the one cell a step can store to holds a zero-extended value. -/
theorem storesNeverMakeALargeWord : Obligations.StoresNeverMakeALargeWord := by
  intro s t hwf hst a _
  rcases step_mem_cases hst with hm | ⟨x, y, hm⟩ <;> rw [hm]
  · exact .inl rfl
  · by_cases hax : a = x.toNat
    · right
      rw [hax, Memory.readWord_write_self x y hwf, Value.toNat_toWord]
      exact Nat.le_of_lt_succ y.isLt
    · exact .inl (s.mem.readWord_write_of_ne x y hax)

/-! ### The fetch -/

/-- With pc beyond memory the opcode fetch faults (40_execute_loop.md R112, D9). -/
theorem step_of_pc_ge {s : State} (hr : s.status = .running) (hw : s.watchdogDue = false) (hpc : 32768 ≤ s.pc.toNat) :
    step s = .next (s.raise .addressOutOfRange (.address s.pc.toNat)) := by
  have hf : s.fetch = .error .noOpcode := by rw [State.fetch, State.codeWords_of_ge hpc, decodeWords]
  rw [step_of_fetch_error hr hw hf]
  rfl

/-- Settles O9: the two sides of `MemRead`, the data read, and the fetch beyond memory. -/
theorem memReadIsTheCellOrNothing : Obligations.MemReadIsTheCellOrNothing :=
  ⟨fun m _ => ⟨fun h => m.read_of_lt (Nat.lt_succ_of_le h), fun h => m.read_of_ge h⟩, Memory.read_value,
    fun _ hr hw hpc => step_of_pc_ge hr hw hpc⟩

/-- Each fetched word is the `MemRead` of its own address. -/
theorem Memory.getElem?_wordsAt (m : Memory) {a n k : Nat} (hk : k < n) : (m.wordsAt a n)[k]? = m.read (a + k) := by
  induction n generalizing a k with
  | zero => omega
  | succ n ih =>
    by_cases ha : a < 32768
    · simp only [Memory.wordsAt, Memory.read_of_lt m ha]
      cases k with
      | zero => exact (m.read_of_lt ha).symm
      | succ k =>
        rw [List.getElem?_cons_succ, ih (Nat.lt_of_succ_lt_succ hk), Nat.add_right_comm, Nat.add_assoc]
    · simp [Memory.wordsAt, m.read_of_ge (Nat.not_lt.mp ha), m.read_of_ge (a := a + k) (by omega)]

theorem State.getElem?_codeWords (s : State) {k : Nat} (hk : k < 4) : s.codeWords[k]? = s.mem.read (s.pc.toNat + k) :=
  s.mem.getElem?_wordsAt hk

/-- The word 0 at pc is `halt`, whatever follows. -/
theorem State.fetch_halt {s : State} (h : s.mem.read s.pc.toNat = some 0) : s.fetch = .ok .halt := by
  rw [State.fetch, State.codeWords_of_read h]
  rfl

/-- The word 21 at pc is `noop`, whatever follows (D1, log 10). -/
theorem State.fetch_noop {s : State} (h : s.mem.read s.pc.toNat = some 21) : s.fetch = .ok .noop := by
  rw [State.fetch, State.codeWords_of_read h]
  rfl

/-! ### A store into the next instruction -/

theorem exec_wmem_of_val {s : State} {a b : Operand} {x y : Value} (ha : s.val a = some x) (hb : s.val b = some y) :
    exec (.wmem a b) s = complete ((s.memWrite x y).advance 2) := by
  simp only [exec, execWmem, withVal_of_val ha, withVal_of_val hb]

/-- Settles O55: after the store the cell reads as the stored value, and every fetched word is the cell at its address. -/
theorem aStoreIsSeenByTheNextFetch : Obligations.AStoreIsSeenByTheNextFetch := by
  intro s t a b x y hwf ha hb h
  have hread : t.mem.read x.toNat = some y.toWord := by
    rw [exec_wmem_of_val ha hb] at h
    cases h
    simp [Memory.readWord_write_self x y hwf]
  refine ⟨fun k hk hx => ?_, fun hx hy hr hw => ?_⟩
  · rw [t.getElem?_codeWords hk, hx, hread]
  · have hf : t.fetch = .ok .halt := State.fetch_halt (by rw [hx, hread, hy]; rfl)
    rw [step_of_fetch_ok hr hw hf, exec_halt]
    rfl

/-! ### Padding -/

theorem State.watchdogDue_of_no_ceiling {s : State} (h : s.ceiling = none) : s.watchdogDue = false := by
  simp [State.watchdogDue, h]

/-- The state k noops later: pc and the cycle count have advanced by k. -/
def State.afterNoops (s : State) (k : Nat) : State := { s with pc := s.pc + BitVec.ofNat 16 k, cycles := s.cycles + k }

theorem State.afterNoops_zero (s : State) : s.afterNoops 0 = s := by simp [State.afterNoops]

theorem State.afterNoops_afterNoops (s : State) (j k : Nat) : (s.afterNoops j).afterNoops k = s.afterNoops (j + k) := by
  simp only [State.afterNoops, BitVec.ofNat_add, BitVec.add_assoc, Nat.add_assoc]

theorem State.toNat_pc_afterNoops {s : State} {k : Nat} (h : s.pc.toNat + k ≤ 32768) :
    (s.afterNoops k).pc.toNat = s.pc.toNat + k := by
  simp only [State.afterNoops, BitVec.toNat_add, BitVec.toNat_ofNat]
  omega

/-- A step over a padding word is one noop. -/
theorem step_of_padding {s : State} (hr : s.status = .running) (hc : s.ceiling = none) (hpc : s.pc.toNat < 32768)
    (h : s.mem.readWord s.pc.toNat = 21) : step s = .next (s.afterNoops 1) := by
  have hf : s.fetch = .ok .noop := State.fetch_noop (by rw [s.mem.read_of_lt hpc, h])
  rw [step_of_fetch_ok hr (State.watchdogDue_of_no_ceiling hc) hf]
  rfl

/-- Where the next k cells from pc on hold padding, k steps are k noops. -/
theorem steps_over_padding {s : State} {k : Nat} (hr : s.status = .running) (hc : s.ceiling = none)
    (hk : s.pc.toNat + k ≤ 32768) (h : ∀ a, s.pc.toNat ≤ a → a < s.pc.toNat + k → s.mem.readWord a = 21) :
    steps k s = some (s.afterNoops k) := by
  induction k generalizing s with
  | zero => rw [steps_zero, s.afterNoops_zero]
  | succ k ih =>
    have hstep : step s = .next (s.afterNoops 1) := step_of_padding hr hc (by omega) (h _ le_rfl (by omega))
    have hpc : (s.afterNoops 1).pc.toNat = s.pc.toNat + 1 := State.toNat_pc_afterNoops (by omega)
    have hrest : steps k (s.afterNoops 1) = some ((s.afterNoops 1).afterNoops k) :=
      ih hr hc (by omega) fun a h1 h2 => h a (by omega) (by omega)
    rw [steps_succ_of_next hstep, hrest, s.afterNoops_afterNoops, Nat.add_comm]

/-- Settles O53: `steps_over_padding` up to the end of memory, and the fetch fault there. -/
theorem paddingRunsToTheEndAndFaults : Obligations.PaddingRunsToTheEndAndFaults := by
  intro s hr hc hle h
  obtain ⟨k, hk⟩ := Nat.exists_eq_add_of_le hle
  have hend : (s.afterNoops k).pc.toNat = 32768 := by rw [State.toNat_pc_afterNoops hk.ge, hk]
  have hpc : (s.afterNoops k).pc = 32768 := BitVec.eq_of_toNat_eq hend
  have hfault := step_of_pc_ge (s := s.afterNoops k) hr (State.watchdogDue_of_no_ceiling hc) hend.ge
  rw [hend] at hfault
  rw [show 32768 - s.pc.toNat = k by omega]
  refine ⟨s.afterNoops k, ?_, steps_over_padding hr hc hk.ge fun a h1 h2 => h a h1 (by omega), hfault⟩
  rw [← hpc]
  rfl

end Sys2Proof.Machine

namespace Sys2Proof

/-! ## Encoding (30_encoding.md)

The classes of operand word and their bits, then the bytes of words, and last the decoder on the words of an
instruction: what it answers when they are all there, and that what it answers determines them. -/

/-! ### The classes of operand word (R83) -/

theorem classify_of_lt {w : Word} (h : w.toNat < 32768) : classify w = .lit (w.setWidth 15) := if_pos h

theorem classify_of_reg {w : Word} (h : 32768 ≤ w.toNat) (h' : w.toNat ≤ 32775) :
    classify w = .reg (Reg.ofIndex w.toNat) :=
  (if_neg (Nat.not_lt.mpr h)).trans (if_pos h')

theorem classify_of_gt {w : Word} (h : 32775 < w.toNat) : classify w = .invalid w :=
  (if_neg (Nat.not_lt.mpr (by simp only [Config.regBase]; omega))).trans (if_neg (Nat.not_le.mpr h))

theorem Role.accepts_invalid (ρ : Role) (w : Word) : ρ.accepts (.invalid w) = false := by cases ρ <;> rfl

/-- Bit 15 is the top bit of a word (D19). -/
theorem getLsbD_fifteen (w : Word) : w.getLsbD 15 = decide (32768 ≤ w.toNat) :=
  (BitVec.msb_eq_getLsbD_last w).symm.trans (BitVec.msb_eq_decide w)

/-- Of the words with bit 15 set, those with bits 14 to 3 clear are the register references. -/
theorem extractLsb'_middle_eq_zero_iff {w : Word} (h : 32768 ≤ w.toNat) :
    w.extractLsb' 3 12 = 0 ↔ w.toNat ≤ 32775 := by
  have hw := w.isLt
  rw [← BitVec.toNat_inj, BitVec.extractLsb'_toNat, Nat.shiftRight_eq_div_pow]
  simp only [BitVec.ofNat_eq_ofNat, BitVec.toNat_ofNat]
  omega

/-- Settles O3: one `classify` equation per range; bit 15 and bits 14 to 3 tell the ranges apart. -/
theorem operandWordsFallInThreeClasses : Obligations.OperandWordsFallInThreeClasses := by
  intro w
  refine ⟨fun h => ?_, fun h h' => ?_, fun h => ?_⟩
  · have hlt : w.toNat < 32768 := Nat.lt_succ_of_le h
    have hval : (w.extractLsb' 0 15).toNat = w.toNat := by
      rw [BitVec.extractLsb'_toNat, Nat.shiftRight_zero]
      exact Nat.mod_eq_of_lt hlt
    rw [classify_of_lt hlt, BitVec.setWidth_eq_extractLsb' (by decide)]
    exact ⟨rfl, hval, (getLsbD_fifteen w).trans (decide_eq_false (Nat.not_le.mpr hlt))⟩
  · refine ⟨(getLsbD_fifteen w).trans (decide_eq_true h), (extractLsb'_middle_eq_zero_iff h).mpr h', _,
      classify_of_reg h h', ?_⟩
    rw [Reg.index_ofIndex, BitVec.extractLsb'_toNat, Nat.shiftRight_zero]
    exact ⟨by omega, rfl⟩
  · have hle : 32768 ≤ w.toNat := by omega
    rw [classify_of_gt h]
    exact ⟨rfl, (getLsbD_fifteen w).trans (decide_eq_true hle),
      fun h0 => Nat.not_le.mpr h ((extractLsb'_middle_eq_zero_iff hle).mp h0), Role.accepts_invalid _ w,
      Role.accepts_invalid _ w⟩

/-! ### Words and image bytes (R94) -/

/-- The words at the head of a byte sequence are read back whatever bytes follow. -/
theorem wordsOfBytes_bytesOfWords_append (ws : List Word) (bs : List Byte) :
    wordsOfBytes (bytesOfWords ws ++ bs) = ws ++ wordsOfBytes bs := by
  induction ws with
  | nil => rfl
  | cons w ws ih => simp only [bytesOfWords, List.cons_append, wordsOfBytes, ih, append_bytes w]

/-! ### Decoding what was encoded (R80, R81) -/

theorem decodeF1_word {ρ : Role} {a : Operand} (mk : Operand → Instr) (ha : ρ.accepts a = true) (rest : List Word) :
    decodeF1 mk (a.word :: rest) = .ok (mk a) := by
  rw [decodeF1, classify_word ha]

theorem decodeF2_word {ρ σ : Role} {a b : Operand} (mk : Operand → Operand → Instr) (ha : ρ.accepts a = true)
    (hb : σ.accepts b = true) (rest : List Word) : decodeF2 mk (a.word :: b.word :: rest) = .ok (mk a b) := by
  rw [decodeF2, classify_word ha, classify_word hb]

theorem decodeF3_word {ρ σ τ : Role} {a b c : Operand} (mk : Operand → Operand → Operand → Instr)
    (ha : ρ.accepts a = true) (hb : σ.accepts b = true) (hc : τ.accepts c = true) (rest : List Word) :
    decodeF3 mk (a.word :: b.word :: c.word :: rest) = .ok (mk a b c) := by
  rw [decodeF3, classify_word ha, classify_word hb, classify_word hc]

/-- The decoder gives a well-formed instruction back from its words, whatever words follow: one argument per format. -/
theorem decodeWords_encode_append {i : Instr} (h : i.wellFormed = true) (rest : List Word) :
    decodeWords (encode i ++ rest) = .ok i := by
  have hacc : ∀ p ∈ i.operands, p.1.accepts p.2 = true := List.all_eq_true.mp h
  cases i with
  | halt | ret | noop => rfl
  | push a | pop a | jmp a | call a | out a | inp a =>
    exact decodeF1_word _ (hacc _ (.head _)) rest
  | set a b | jt a b | jf a b | not a b | rmem a b | wmem a b =>
    exact decodeF2_word _ (hacc _ (.head _)) (hacc _ (.tail _ (.head _))) rest
  | eq a b c | gt a b c | add a b c | mult a b c | mod a b c | and a b c | or a b c =>
    exact decodeF3_word _ (hacc _ (.head _)) (hacc _ (.tail _ (.head _))) (hacc _ (.tail _ (.tail _ (.head _)))) rest

/-- Settles O1: the words by `decodeWords_encode_append`, the bytes by reading them as the words. -/
theorem decodeOfEncodeIsTheInstruction : Obligations.DecodeOfEncodeIsTheInstruction := by
  refine fun i h => ⟨decodeWords_encode_append h, fun rest => ?_⟩
  rw [decode, encodeBytes, wordsOfBytes_bytesOfWords_append]
  exact decodeWords_encode_append h _

/-- Settles O2: both sequences begin with the words of the instruction (`decoded_of_ok`). -/
theorem decodingDeterminesTheWords : Obligations.DecodingDeterminesTheWords := by
  intro ws ws' i h h'
  have d := decoded_of_ok h
  exact ⟨d.words.trans (decoded_of_ok h').words.symm, d.long⟩

/-! ### The opcode words (R82, R86) -/

theorem opcode_of_decodeWords_ok {op : Word} {ws : List Word} {i : Instr} (h : decodeWords (op :: ws) = .ok i) :
    i.opcode = op := by
  have hw := (decoded_of_ok h).words
  rw [Nat.add_comm, List.take_succ_cons] at hw
  exact (List.cons.inj hw).1.symm

/-- Where an instruction's operand words are all there, its opcode word decodes. -/
theorem decodeWords_opcode {i : Instr} {ws : List Word} (h : i.opcount ≤ ws.length) :
    ∃ j, decodeWords (i.opcode :: ws) = .ok j := by
  cases i with
  | halt | ret | noop => exact ⟨_, rfl⟩
  | push a | pop a | jmp a | call a | out a | inp a =>
    match ws, h with
    | _ :: _, _ => exact ⟨_, rfl⟩
  | set a b | jt a b | jf a b | not a b | rmem a b | wmem a b =>
    match ws, h with
    | _ :: _ :: _, _ => exact ⟨_, rfl⟩
  | eq a b c | gt a b c | add a b c | mult a b c | mod a b c | and a b c | or a b c =>
    match ws, h with
    | _ :: _ :: _ :: _, _ => exact ⟨_, rfl⟩

/-- Every word up to 21 is an opcode word: the 22 of them, each followed by three words. -/
theorem exists_opcode_eq {op : Word} (h : op.toNat ≤ 21) : ∃ i : Instr, i.opcode = op := by
  have hall : ∀ k : Fin 22, (decodeWords [BitVec.ofNat 16 k, 0, 0, 0]).isOk = true := by decide
  have hop := hall ⟨op.toNat, Nat.lt_succ_of_le h⟩
  simp only [BitVec.ofNat_toNat, BitVec.setWidth_eq] at hop
  cases hd : decodeWords [op, 0, 0, 0] with
  | ok i => exact ⟨i, opcode_of_decodeWords_ok hd⟩
  | error e => rw [hd] at hop; cases hop

/-- The word of an instruction's opcode is never reported as unknown: it decodes, or an operand word is missing. -/
theorem decodeWords_opcode_ne_unknown (i : Instr) (ws : List Word) :
    decodeWords (i.opcode :: ws) ≠ .error (.unknownOpcode i.opcode) := by
  rcases Nat.lt_or_ge ws.length i.opcount with hlt | hge
  · rw [decodeWords_short hlt]
    nofun
  · obtain ⟨j, hj⟩ := decodeWords_opcode hge
    rw [hj]
    nofun

/-- Settles O4: a word above 21 is reported; one up to 21 is the opcode word of an instruction, which has at most three
operands. -/
theorem opcodeWordsAreZeroToTwentyOne : Obligations.OpcodeWordsAreZeroToTwentyOne := by
  refine fun op ws => ⟨⟨fun hunk => ?_, decodeWords_unknown ws⟩, fun hop hlen => ?_⟩
  · by_contra hop
    obtain ⟨i, rfl⟩ := exists_opcode_eq (Nat.not_lt.mp hop)
    exact decodeWords_opcode_ne_unknown i ws hunk
  · obtain ⟨i, rfl⟩ := exists_opcode_eq hop
    obtain ⟨j, hj⟩ := decodeWords_opcode (i.opcount_le.trans hlen)
    exact ⟨j, hj, opcode_of_decodeWords_ok hj⟩

/-- Settles O5: each row is one arm of the decoder, whatever the operand words. -/
theorem opcodeMapOfTheTwentyTwoInstructions : Obligations.OpcodeMapOfTheTwentyTwoInstructions := by
  intro a b c
  and_intros <;> rfl

/-- Settles O6: each sample is the encoding of its instruction, which is well-formed. -/
theorem sampleWordsDecodeToTheirInstructions : Obligations.SampleWordsDecodeToTheirInstructions :=
  ⟨decodeWords_encode_append (i := .set (.reg .r1) (.lit 32767)) rfl [],
    decodeWords_encode_append (i := .jt (.reg .r0) (.lit 50)) rfl [],
    decodeWords_encode_append (i := .add (.reg .r0) (.reg .r1) (.lit 15)) rfl [],
    decodeWords_encode_append (i := .wmem (.reg .r0) (.reg .r1)) rfl [],
    decodeWords_encode_append (i := .inp (.reg .r0)) rfl [],
    decodeWords_encode_append (i := .add (.reg .r0) (.reg .r1) (.lit 4)) rfl []⟩

end Sys2Proof

namespace Sys2Proof.Machine

/-! ### An instruction placed at pc (log 2) -/

/-- The table word's instruction is the one its four words decode to. -/
theorem decodeWords_of_decodeTableWord {nbits w : Nat} {i : Instr} (h : decodeTableWord nbits w = some i) :
    decodeWords (tableWords nbits w) = .ok i := by
  rw [decodeTableWord, decode, wordsOfBytes_bytesOfWords] at h
  split at h
  · next j hj => rw [hj, Option.some.inj h]
  · cases h

/-- With room for four words, the fetch reads the placed words. -/
theorem State.codeWords_withFetchWord {s : State} (hwf : s.mem.wf = true) (hpc : s.pc.toNat + 3 ≤ 32767)
    (nbits w : Nat) : (s.withFetchWord nbits w).codeWords = tableWords nbits w :=
  (Memory.wordsAt_writeWords (tableWords nbits w) hwf (Nat.succ_le_succ hpc)).1

/-- Settles O34: the fetch reads the placed words, which decode to the instruction, and placing them changes only
memory. -/
theorem placedWordIsWhatTheNextStepRuns : Obligations.PlacedWordIsWhatTheNextStepRuns := by
  intro s nbits w i hwf hr hw hpc hdec
  have hfetch : (s.withFetchWord nbits w).fetch = .ok i := by
    rw [State.fetch, State.codeWords_withFetchWord hwf hpc, decodeWords_of_decodeTableWord hdec]
  exact step_of_fetch_ok hr hw hfetch

end Sys2Proof.Machine

namespace Sys2Proof

/-! ## The execute loop (40_execute_loop.md)

First what the operand table says of register references and destinations. Then the loop: where the watchdog stands
and what a fetch reads, how an instruction ends and what it counts, the bound on a run, and the classification of
operands: the first that does not fit its role, the value of V, the register of D. -/

/-! ### Register references and destination operands (30_encoding.md R83, R85) -/

theorem Reg.ofIndex_sub {n : Nat} (h : 32768 ≤ n) : Reg.ofIndex (n - 32768) = Reg.ofIndex n := by
  rw [← Reg.ofIndex_add, Nat.add_sub_cancel' h]

/-- Between 32768 and 32775 a word's distance from 32768 is its low three bits (30_encoding.md R83). -/
theorem Reg.index_ofIndex_of_reg {w : Word} (h : 32768 ≤ w.toNat) (h' : w.toNat ≤ 32775) :
    (Reg.ofIndex w.toNat).index = w.toNat - 32768 := by
  rw [Reg.index_ofIndex]
  omega

theorem Instr.operands_of_destReg {i : Instr} {r : Reg} (h : i.destReg = some r) :
    ∃ rest, i.operands = (.dest, .reg r) :: rest := by
  unfold Instr.destReg at h
  split at h
  · next r' rest hops => exact ⟨rest, Option.some.inj h ▸ hops⟩
  · cases h

/-- The twelve rows of the table of R85 with a destination (30_encoding.md R85, R86; D1, D22). -/
theorem Instr.dest_iff_opcode (i : Instr) : (∃ a rest, i.operands = (.dest, a) :: rest) ↔
    i.opcode ∈ ([1, 3, 4, 5, 9, 10, 11, 12, 13, 14, 15, 20] : List Word) := by
  cases i with
  | set | pop | eq | gt | add | mult | mod | and | or | not | rmem | inp =>
    exact iff_of_true ⟨_, _, rfl⟩ (by simp [Instr.opcode])
  | halt | push | jmp | jt | jf | wmem | call | ret | out | noop =>
    exact iff_of_false nofun (by simp [Instr.opcode])

end Sys2Proof

namespace Sys2Proof.Machine

/-! ### The watchdog and the fetch (R111 to R114, R123) -/

/-- At its ceiling a running machine stops before it fetches (R111, D13). -/
theorem step_of_watchdogDue {s : State} (hr : s.status = .running) (hw : s.watchdogDue = true) :
    step s = .next s.watchdogStop := by
  rw [step, if_pos hr, runCycle, if_pos hw]

/-- Settles O36: `step_of_watchdogDue` at the ceiling, and `step_watchdogStop_iff` below it. -/
theorem watchdogStopsBeforeTheFetch : Obligations.WatchdogStopsBeforeTheFetch := by
  refine fun s hr => ⟨fun n hc hn => step_of_watchdogDue hr (s.watchdogDue_iff.mpr ⟨n, hc, hn⟩), fun h t hst ht => ?_⟩
  obtain ⟨n, hc, hn⟩ := s.watchdogDue_iff.mp ((step_watchdogStop_iff hst).mp ht)
  exact Nat.not_le.mpr (h n hc) hn

/-- Settles O33: the decoder's answer on the words at pc is the fetch. -/
theorem stepRunsTheDecodedInstruction : Obligations.StepRunsTheDecodedInstruction :=
  fun _ _ hr hw hd => step_of_fetch_ok hr hw hd

/-- Settles O32: each fetched word is the `MemRead` of its own address. -/
theorem codeWordsAreTheCellsAtPc : Obligations.CodeWordsAreTheCellsAtPc :=
  fun s _ hk => s.getElem?_codeWords hk

theorem Memory.lt_of_read_eq_some {m : Memory} {a : Nat} {w : Word} (h : m.read a = some w) : a < 32768 := by
  by_contra hge
  rw [m.read_of_ge (Nat.not_lt.mp hge)] at h
  cases h

/-- A word above 21 at pc is an unknown opcode, whatever follows (R113). -/
theorem State.fetch_unknown {s : State} {w : Word} (h : s.mem.read s.pc.toNat = some w) (hw : 21 < w.toNat) :
    s.fetch = .error (.unknownOpcode w) := by
  rw [State.fetch, State.codeWords_of_read h, decodeWords_unknown _ hw]

/-- Of an instruction that does not fit in memory, the fetch misses the operand word at address 32768 (R114, D9). -/
theorem State.fetch_beyond {s : State} {i : Instr} (h : s.mem.read s.pc.toNat = some i.opcode)
    (hfit : 32767 < s.pc.toNat + i.opcount) : ∃ k, s.fetch = .error (.missingOperand k) ∧ s.pc.toNat + k = 32768 := by
  have hpc : s.pc.toNat < 32768 := Memory.lt_of_read_eq_some h
  have hn : i.opcount ≤ 3 := i.opcount_le
  have hlen : (s.mem.wordsAt (s.pc.toNat + 1) 3).length = 32767 - s.pc.toNat := by rw [Memory.length_wordsAt]; omega
  have hf : s.fetch = .error (.missingOperand ((s.mem.wordsAt (s.pc.toNat + 1) 3).length + 1)) := by
    rw [State.fetch, State.codeWords_of_read h, decodeWords_short (by omega)]
  exact ⟨_, hf, by omega⟩

/-- Settles O35: what the fetch answers in each phase, and the fault it takes for that. -/
theorem fetchFaultsInPhaseOrder : Obligations.FetchFaultsInPhaseOrder := by
  refine fun s hr hw => ⟨fun hpc => step_of_pc_ge hr hw hpc, fun w h hop => ?_, fun i h hfit => ?_⟩
  · rw [step_of_fetch_error hr hw (State.fetch_unknown h hop)]
    rfl
  · obtain ⟨k, hf, hk⟩ := State.fetch_beyond h hfit
    rw [step_of_fetch_error hr hw hf, fetchFault, hk]
    rfl

/-! ### What an instruction counts, and the stall (R120, R121) -/

/-- An instruction counts one cycle unless it faults, and then it counts none (R120). -/
theorem Ending.cycles_cases {i : Instr} {s t : State} (e : Ending i s t) :
    (t.status = .faulted ∧ t.cycles = s.cycles) ∨ ((t.status = s.status ∨ ∃ why, t.status = .halted why) ∧
      t.cycles = s.cycles + 1) := by
  cases e with
  | faulted k info => exact .inl ⟨rfl, rfl⟩
  | halted why _ => exact .inr ⟨.inr ⟨why, rfl⟩, rfl⟩
  | completed e => exact .inr ⟨.inl e.status, congrArg (· + 1) e.cycles⟩

/-- The instructions that answer no next state are those that wait (R121, log 5). -/
theorem exec_ne_next_iff {i : Instr} {s : State} : (∀ t, exec i s ≠ .next t) ↔ s.waitsIn i := by
  refine ⟨fun h => ?_, fun hw t h => ?_⟩
  · by_contra hw
    obtain ⟨t, ht, -⟩ := exec_ending hw
    exact h t ht
  · rw [exec_of_waitsIn hw] at h
    cases h

/-- Settles O42: the count by the way the instruction ended, and `exec_ne_next_iff`. -/
theorem cyclesCountCompletedInstructions : Obligations.CyclesCountCompletedInstructions := by
  refine ⟨fun i s t hr h => ?_, fun i s => exec_ne_next_iff⟩
  rcases (ending_of_exec h).cycles_cases with ⟨hst, hc⟩ | ⟨hst | ⟨why, hst⟩, hc⟩
  · simp [hst, hc]
  · simp [hst, hr, hc]
  · simp [hst, hc]

/-- A machine whose step is taken and that runs on was below its ceiling and has counted one cycle (R111, R120). -/
theorem step_to_running {s t : State} (hst : step s = .next t) (ht : t.status = .running) :
    s.watchdogDue = false ∧ t.cycles = s.cycles + 1 := by
  obtain ⟨-, ⟨-, rfl⟩ | ⟨hw, ⟨e, -, k, info, -, rfl⟩ | ⟨i, -, -, he⟩⟩⟩ := step_cases hst
  · simp at ht
  · simp at ht
  · rcases he.cycles_cases with ⟨hf, -⟩ | ⟨-, hc⟩
    · simp [hf] at ht
    · exact ⟨hw, hc⟩

/-- A running machine without a next state is the stalled one (R121, log 5). -/
theorem stalled_iff {s : State} : s.stalled ↔ s.status = .running ∧ ∀ t, step s ≠ .next t := by
  refine ⟨fun hw => ⟨hw.1, fun t h => ?_⟩, fun ⟨hr, hno⟩ => ?_⟩
  · rw [step_of_stalled hw] at h
    cases h
  · by_contra hw
    obtain ⟨t, ht⟩ := step_running hr hw
    exact hno t ht

/-- Only the stalled machine answers the stall: one that has ended answers another fault (log 5, log 6). -/
theorem step_eq_stalled_iff {s : State} : step s = .fault .stalled ↔ s.stalled := by
  refine ⟨fun h => stalled_iff.mpr ⟨?_, by simp [h]⟩, step_of_stalled⟩
  by_contra hr
  rw [step_of_ended hr] at h
  cases h

theorem exec_inp_of_nextChar {s s' : State} {ch : Value} (d : Reg) (h : s.nextChar = some (ch, s')) :
    exec (.inp (.reg d)) s = complete ((s'.setReg d ch.toNat).advance 1) := by
  simp only [exec, execIn, withDst_reg, h]

/-- With nothing queued a character comes from the first line, whatever it holds, and that line is taken
(48_io.md R213). -/
theorem State.nextChar_refill {s : State} {line : List Value} {lines : List (List Value)} (h : s.inq = [])
    (h' : s.hostLines = line :: lines) :
    ∃ ch q, s.nextChar = some (ch, { s with inq := q, hostLines := lines }) := by
  cases line with
  | nil => exact ⟨_, _, State.nextChar_refill_nil h h'⟩
  | cons c cs => exact ⟨_, _, State.nextChar_refill_cons h h'⟩

/-- A line ends the wait: the same `in` completes (R121, log 4). -/
theorem step_supplyLine_of_stalled {s : State} (hw : s.stalled) (line : List Value) :
    ∃ t, step (s.supplyLine line) = .next t ∧ t.status = .running ∧ t.cycles = s.cycles + 1 ∧ t.hostLines = [] := by
  obtain ⟨hr, hd, i, hf, ⟨d, rfl⟩, hq, hl⟩ := hw
  have hline : (s.supplyLine line).hostLines = line :: [] := by rw [State.supplyLine_hostLines, hl, List.nil_append]
  obtain ⟨ch, q, hch⟩ := State.nextChar_refill (s := s.supplyLine line) hq hline
  rw [step_of_fetch_ok (s := s.supplyLine line) hr hd hf, exec_inp_of_nextChar d hch]
  exact ⟨_, rfl, hr, rfl, rfl⟩

/-- Settles O43: the stalled machine by its step, the count of a step, and the line that ends the wait. -/
theorem onlyInCanStall : Obligations.OnlyInCanStall :=
  ⟨fun _ => step_eq_stalled_iff, fun _ => stalled_iff, fun _ _ hst ht => (step_to_running hst ht).2,
    fun _ line hw => step_supplyLine_of_stalled hw line⟩

/-! ### The watchdog bounds a run (R111, R124) -/

/-- Under a ceiling n, a step that leaves the machine running counts one and stays within n. -/
theorem step_under_ceiling {n : Nat} {s t : State} (hc : s.ceiling = some n) (hst : step s = .next t)
    (ht : t.status = .running) : t.ceiling = some n ∧ t.cycles = s.cycles + 1 ∧ t.cycles ≤ n := by
  obtain ⟨hw, hcount⟩ := step_to_running hst ht
  have hlt : s.cycles < n := Nat.not_le.mp fun hle => by simp [s.watchdogDue_iff.mpr ⟨n, hc, hle⟩] at hw
  exact ⟨(step_growsTo hst).ceiling.trans hc, hcount, hcount.trans_le hlt⟩

theorem steps_succ_eq_some {k : Nat} {s t : State} (h : steps (k + 1) s = some t) :
    ∃ u, step s = .next u ∧ steps k u = some t := by
  cases hst : step s with
  | next u => exact ⟨u, rfl, (steps_succ_of_next hst k).symm.trans h⟩
  | fault φ => simp [steps, hst] at h
  | refused ρ => simp [steps, hst] at h

/-- A run that is running at its end was running at its start. -/
theorem running_of_steps {k : Nat} {s t : State} (h : steps k s = some t) (ht : t.status = .running) :
    s.status = .running := by
  cases k with
  | zero => cases h; exact ht
  | succ k =>
    obtain ⟨u, hst, -⟩ := steps_succ_eq_some h
    exact (step_cases hst).1

/-- A run under a ceiling n that still runs has counted every one of its steps, and no more than n. -/
theorem steps_under_ceiling {n k : Nat} {s t : State} (hc : s.ceiling = some n) (hle : s.cycles ≤ n)
    (h : steps k s = some t) (ht : t.status = .running) : t.cycles = s.cycles + k ∧ t.cycles ≤ n := by
  induction k generalizing s with
  | zero => cases h; exact ⟨rfl, hle⟩
  | succ k ih =>
    obtain ⟨u, hst, hrest⟩ := steps_succ_eq_some h
    obtain ⟨huc, hcount, hule⟩ := step_under_ceiling hc hst (running_of_steps hrest ht)
    obtain ⟨hcycles, hbound⟩ := ih huc hule hrest
    exact ⟨by omega, hbound⟩

/-- A run under a ceiling n ends or waits after at most one step more than the cycles left to it. -/
theorem exists_steps_ended_or_stalled {n : Nat} {s : State} (hr : s.status = .running) (hc : s.ceiling = some n) :
    ∃ k t, k ≤ n - s.cycles + 1 ∧ steps k s = some t ∧ (t.status ≠ .running ∨ t.stalled) := by
  by_cases hw : s.stalled
  · exact ⟨0, s, Nat.zero_le _, rfl, .inr hw⟩
  obtain ⟨u, hst⟩ := step_running hr hw
  by_cases hu : u.status = .running
  · obtain ⟨huc, hcount, hule⟩ := step_under_ceiling hc hst hu
    obtain ⟨k, t, hk, hrun, hend⟩ := exists_steps_ended_or_stalled hu huc
    exact ⟨k + 1, t, by omega, (steps_succ_of_next hst k).trans hrun, hend⟩
  · exact ⟨1, u, Nat.le_add_left _ _, steps_succ_of_next hst 0, .inl hu⟩
termination_by n - s.cycles

/-- Settles O52: `steps_under_ceiling` while it runs, `exists_steps_ended_or_stalled` for its end or wait. -/
theorem watchdogBoundsEveryRun : Obligations.WatchdogBoundsEveryRun :=
  fun _ _ hr hc hle =>
    ⟨fun _ _ h ht => steps_under_ceiling hc hle h ht, exists_steps_ended_or_stalled hr hc⟩

/-! ### The first misfit (R115) -/

/-- The result r is the fault of the first operand of ops that does not fit its role, if there is one; k is the position
of the first operand. -/
def ClassifiesFrom (s : State) (k : Nat) (ops : List (Role × Operand)) (r : Result) : Prop :=
  ∀ (j : Nat) (ρ : Role) (w : Operand), ops[j]? = some (ρ, w) → ρ.accepts w = false →
    (∀ j' p, j' < j → ops[j']? = some p → p.1.accepts p.2 = true) →
    r = .next (s.raise (misfitKind w) (.operand (j + k) w.word))

section
variable {s : State} {k : Nat} {w : Operand} {ops : List (Role × Operand)} {r : Result}

theorem ClassifiesFrom.nil : ClassifiesFrom s k [] r := nofun

/-- The first operand's fault, or the rest is classified after it. -/
theorem ClassifiesFrom.cons {ρ : Role}
    (hmisfit : ρ.accepts w = false → r = .next (s.raise (misfitKind w) (.operand k w.word)))
    (hfit : ρ.accepts w = true → ClassifiesFrom s (k + 1) ops r) : ClassifiesFrom s k ((ρ, w) :: ops) r := by
  intro j σ x hj hx hbefore
  cases j with
  | zero =>
    cases hj
    rw [Nat.zero_add]
    exact hmisfit hx
  | succ j =>
    rw [Nat.succ_add_eq_add_succ]
    exact hfit (hbefore 0 (ρ, w) (Nat.succ_pos j) rfl) j σ x hj hx fun j' p hlt hp =>
      hbefore (j' + 1) p (Nat.succ_lt_succ hlt) hp

theorem ClassifiesFrom.withVal {f : Value → Result} (h : ∀ v, ClassifiesFrom s (k + 1) ops (f v)) :
    ClassifiesFrom s k ((.value, w) :: ops) (withVal k w s f) := by
  cases w with
  | lit v => exact .cons nofun fun _ => h v
  | reg q => exact .cons nofun fun _ => h (s.reg q)
  | invalid x => exact .cons (fun _ => rfl) nofun

theorem ClassifiesFrom.withDst {f : Reg → Result} (h : ∀ d, ClassifiesFrom s (k + 1) ops (f d)) :
    ClassifiesFrom s k ((.dest, w) :: ops) (withDst k w s f) := by
  cases w with
  | lit v => exact .cons (fun _ => rfl) nofun
  | reg d => exact .cons nofun fun _ => h d
  | invalid x => exact .cons (fun _ => rfl) nofun

end

/-- Every meaning classifies its operands in their order and by their roles before it does anything else: one argument
per format of operand roles. -/
theorem exec_classifies (i : Instr) (s : State) : ClassifiesFrom s 1 i.operands (exec i s) := by
  cases i with
  | halt | ret | noop => exact .nil
  | push a | jmp a | call a | out a => exact .withVal fun _ => .nil
  | pop a | inp a => exact .withDst fun _ => .nil
  | jt a b | jf a b | wmem a b => exact .withVal fun _ => .withVal fun _ => .nil
  | set a b | not a b | rmem a b => exact .withDst fun _ => .withVal fun _ => .nil
  | eq a b c | gt a b c | add a b c | mult a b c | mod a b c | and a b c | or a b c =>
    exact .withDst fun _ => .withVal fun _ => .withVal fun _ => .nil

/-- Settles O38: `exec_classifies`, the first operand being at position 1. -/
theorem firstMisfitOperandIsReported : Obligations.FirstMisfitOperandIsReported := exec_classifies

/-! ### The value of an operand (R116) -/

theorem exec_add_of_val {s : State} {b c : Operand} {x y : Value} (d : Reg) (hb : s.val b = some x)
    (hc : s.val c = some y) : exec (.add (.reg d) b c) s = complete ((s.setReg d (x.toNat + y.toNat)).advance 3) := by
  simp only [exec, execAdd, writeD2, withDst_reg, withVal_of_val hb, withVal_of_val hc]

/-- Settles O7: one `classify` equation per range; `add` sums the contents its sources had before the write. -/
theorem valOfALegalOperandWord : Obligations.ValOfALegalOperandWord := by
  refine ⟨fun s w hw => ?_, fun s t d h => ?_⟩
  · have hle : ∀ v : Value, v.toNat ≤ 32767 := fun v => Nat.le_of_lt_succ v.isLt
    rcases Nat.lt_or_ge w.toNat 32768 with hlt | hge
    · rw [classify_of_lt hlt]
      refine ⟨_, rfl, hle _, fun _ => ?_, fun hge => absurd hge (Nat.not_le.mpr hlt)⟩
      rw [BitVec.toNat_setWidth, Nat.mod_eq_of_lt hlt]
    · rw [classify_of_reg hge hw, Reg.ofIndex_sub hge]
      exact ⟨_, rfl, hle _, fun h => absurd h (by omega), fun _ => rfl⟩
  · rw [exec_add_of_val d (s.val_reg d) (s.val_reg d)] at h
    cases h
    exact s.toNat_reg_setReg_self d _

/-! ### The register of a destination (R117) -/

/-- The destination operand comes first and names the register (30_encoding.md R85). -/
theorem destReg_of_operands {i : Instr} {a : Operand} {rest : List (Role × Operand)}
    (h : i.operands = (.dest, a) :: rest) : i.destReg = Operand.dst a := by
  rw [Instr.destReg, h]
  cases a <;> rfl

/-- An instruction writes no register but its destination, and that one normalised (10_state.md R22, R24). -/
theorem Ending.regs_cases {i : Instr} {s t : State} (e : Ending i s t) :
    t.regs = s.regs ∨ ∃ d n, i.destReg = some d ∧ t.regs = (s.setReg d n).regs := by
  cases e with
  | faulted k info => exact .inl rfl
  | halted why _ => exact .inl rfl
  | completed e => exact e.regs

theorem State.setReg_setReg (s : State) (r : Reg) (n m : Nat) : (s.setReg r n).setReg r m = s.setReg r m := by
  simp only [State.setReg, Regs.set_set]

theorem exec_fault_setReg {i : Instr} {s : State} {φ : Fault} (h : exec i s = .fault φ) (r : Reg) (n : Nat) :
    exec i (s.setReg r n) = .fault φ := by
  have hw : s.waitsIn i := exec_ne_next_iff.mp (by simp [h])
  rw [← h, exec_of_waitsIn hw]
  exact exec_of_waitsIn (s := s.setReg r n) hw

theorem State.popWord_setReg (s : State) (r : Reg) (n : Nat) :
    (s.setReg r n).popWord = s.popWord.map fun p => (p.1, p.2.setReg r n) := by
  rcases s.popWord_cases with ⟨hs, h⟩ | ⟨w, rest, hs, h⟩
  · rw [h, State.popWord_nil (s := s.setReg r n) hs]
    rfl
  · rw [h, State.popWord_cons (s := s.setReg r n) hs]
    rfl

theorem State.nextChar_setReg (s : State) (r : Reg) (n : Nat) :
    (s.setReg r n).nextChar = s.nextChar.map fun p => (p.1, p.2.setReg r n) := by
  obtain ⟨regs, pc, mem, stack, inq, outs, status, cycles, fault, ceiling, lines⟩ := s
  match inq, lines with
  | _ :: _, _ => rfl
  | [], [] => rfl
  | [], [] :: _ => rfl
  | [], (_ :: _) :: _ => rfl

/-- The second result is the first one with n in register r before the instruction, which did not read it: a completed
instruction ends alike, a fault leaves n in r, and a stall stalls. -/
inductive Unread (s : State) (r : Reg) (n : Nat) : Result → Result → Prop where
  | completed {t : State} (h : t.cycles = s.cycles + 1) : Unread s r n (.next t) (.next t)
  | faulted (kind : FaultKind) (info : FaultInfo) :
      Unread s r n (.next (s.raise kind info)) (.next ((s.raise kind info).setReg r n))
  | stalled : Unread s r n stall stall

section
variable {s u : State} {r : Reg} {n : Nat} {b c : Operand}

theorem Unread.of_next {t : State} {res : Result} (h : Unread s r n (.next t) res) :
    res = .next (if t.cycles = s.cycles then t.setReg r n else t) := by
  cases h with
  | completed h => rw [if_neg (by omega)]
  | faulted kind info => rw [if_pos (s.raise_cycles kind info)]

/-- The later write to r hides what it held. -/
theorem Unread.setReg_advance (m j : Nat) (h : u.cycles = s.cycles) :
    Unread s r n (complete ((u.setReg r m).advance j)) (complete (((u.setReg r n).setReg r m).advance j)) := by
  rw [u.setReg_setReg]
  exact .completed (congrArg (· + 1) h)

theorem Unread.withVal (k : Nat) (hb : b ≠ .reg r) {f g : Value → Result} (h : ∀ v, Unread s r n (f v) (g v)) :
    Unread s r n (withVal k b s f) (withVal k b (s.setReg r n) g) := by
  cases b with
  | lit v => exact h v
  | reg q =>
    have hq : (s.setReg r n).reg q = s.reg q := s.reg_setReg_of_ne n fun hqr => hb (congrArg _ hqr)
    simp only [Machine.withVal, hq]
    exact h (s.reg q)
  | invalid x => exact .faulted _ _

theorem Unread.writeD1 (hb : b ≠ .reg r) (f : Value → Nat) :
    Unread s r n (writeD1 (.reg r) b s f) (writeD1 (.reg r) b (s.setReg r n) f) :=
  .withVal 2 hb fun _ => .setReg_advance _ _ rfl

theorem Unread.writeD2 (hb : b ≠ .reg r) (hc : c ≠ .reg r) (f : Value → Value → Nat) :
    Unread s r n (writeD2 (.reg r) b c s f) (writeD2 (.reg r) b c (s.setReg r n) f) :=
  .withVal 2 hb fun _ => .withVal 3 hc fun _ => .setReg_advance _ _ rfl

end

/-- No instruction reads its destination, unless a value operand names it too. -/
theorem exec_unread {i : Instr} {r : Reg} (hd : i.destReg = some r) (hv : (Role.value, Operand.reg r) ∉ i.operands)
    (s : State) (n : Nat) : Unread s r n (exec i s) (exec i (s.setReg r n)) := by
  obtain ⟨rest, hops⟩ := Instr.operands_of_destReg hd
  have hval : ∀ {w : Operand}, (Role.value, w) ∈ i.operands → w ≠ .reg r := fun hw hwr => hv (hwr ▸ hw)
  cases i with
  | halt | push | jmp | jt | jf | wmem | call | ret | out | noop => cases hops
  | set a b | not a b =>
    cases hops
    exact .writeD1 (hval (.tail _ (.head _))) _
  | eq a b c | gt a b c | add a b c | mult a b c | and a b c | or a b c =>
    cases hops
    exact .writeD2 (hval (.tail _ (.head _))) (hval (.tail _ (.tail _ (.head _)))) _
  | mod a b c =>
    cases hops
    refine .withVal 2 (hval (.tail _ (.head _))) fun x => .withVal 3 (hval (.tail _ (.tail _ (.head _)))) fun y => ?_
    split
    · exact .faulted _ _
    · exact .setReg_advance _ _ rfl
  | rmem a b =>
    cases hops
    refine .withVal 2 (hval (.tail _ (.head _))) fun x => ?_
    simp only [Memory.read_value]
    exact .setReg_advance _ _ rfl
  | pop a =>
    cases hops
    simp only [exec, execPop, withDst_reg, State.popWord_setReg]
    rcases s.popWord_cases with ⟨-, h⟩ | ⟨w, stack, -, h⟩ <;> rw [h]
    · exact .faulted _ _
    · exact .setReg_advance _ _ rfl
  | inp a =>
    cases hops
    simp only [exec, execIn, withDst_reg, State.nextChar_setReg]
    rcases s.nextChar_cases with ⟨-, -, h⟩ | ⟨ch, q, ls, h⟩ <;> rw [h]
    · exact .stalled
    · exact .setReg_advance _ _ rfl

/-- Settles O8: the register of the word by its class, the table of R85, the register frame of an ending, and
`exec_unread`. -/
theorem dstOfARegisterReference : Obligations.DstOfARegisterReference := by
  refine ⟨fun w h h' => ?_, fun k a s f r hr => withDst_of_dst hr k s f, Instr.dest_iff_opcode,
    fun i a rest h => destReg_of_operands h, fun i s t r hd h => ?_, State.setReg_setReg,
    fun i s t r n hd hv h => (h ▸ exec_unread hd hv s n).of_next, fun i s r n φ h => exec_fault_setReg h r n⟩
  · have hmod : (Reg.ofIndex w.toNat).index = w.toNat % 8 := Reg.index_ofIndex _
    refine ⟨_, by rw [classify_of_reg h h']; rfl, Reg.index_ofIndex_of_reg h h', ?_, hmod,
      fun s n => s.toNat_reg_setReg_self _ n⟩
    rw [hmod, BitVec.extractLsb'_toNat, Nat.shiftRight_zero]
  · rcases (ending_of_exec h).regs_cases with hregs | ⟨d, n, hd', hregs⟩
    · exact .inl hregs
    · obtain rfl : d = r := Option.some.inj (hd'.symm.trans hd)
      exact .inr ⟨n, hregs⟩

end Sys2Proof.Machine

namespace Sys2Proof.Machine

/-! ## Moves and the stack (41_move_stack.md)

What each instruction completes with, one equation per meaning; `exec_pop_of_cons` stands with the register writes. -/

theorem exec_set_of_val {s : State} {b : Operand} {v : Value} (d : Reg) (h : s.val b = some v) :
    exec (.set (.reg d) b) s = complete ((s.setReg d v.toNat).advance 2) := by
  simp only [exec, execSet, writeD1, withDst_reg, withVal_of_val h]

theorem exec_push_of_val {s : State} {a : Operand} {v : Value} (h : s.val a = some v) :
    exec (.push a) s = complete (({ s with stack := v.toWord :: s.stack } : State).advance 1) := by
  simp only [exec, execPush, withVal_of_val h, withPush_unbounded]

/-- An empty stack is no end of the run for `pop`, but a fault (41_move_stack.md R142). -/
theorem exec_pop_of_nil {s : State} (d : Reg) (h : s.stack = []) :
    exec (.pop (.reg d)) s = raise .stackUnderflow .nothing s := by
  simp only [exec, execPop, withDst_reg, State.popWord_nil h]

/-- Settles O14: the value written is its own normal form. -/
theorem setCopiesAValue : Obligations.SetCopiesAValue := by
  intro s d b v h
  rw [exec_set_of_val d h, State.setReg, norm_value]
  rfl

/-- Settles O15: the stack has no capacity to run into, so the push completes at every depth. -/
theorem pushAddsOneWord : Obligations.PushAddsOneWord :=
  fun _ _ _ h => exec_push_of_val h

/-- Settles O16: the two cases of the stack; the register takes the low 15 bits of the word popped. -/
theorem popTakesTheTopOrUnderflows : Obligations.PopTakesTheTopOrUnderflows := by
  refine ⟨fun s d w rest h => ?_, fun s d h => exec_pop_of_nil d h⟩
  rw [exec_pop_of_cons d h, State.setReg, norm_word]
  rfl

end Sys2Proof.Machine

namespace Sys2Proof.Machine

/-! ## Comparisons (42_compare.md) -/

theorem writeD2_of_val {s : State} {b c : Operand} {x y : Value} (d : Reg) (hb : s.val b = some x)
    (hc : s.val c = some y) (f : Value → Value → Nat) :
    writeD2 (.reg d) b c s f = complete ((s.setReg d (f x y)).advance 3) := by
  simp only [writeD2, withDst_reg, withVal_of_val hb, withVal_of_val hc]

/-- 0 and 1 are their own normal forms. -/
theorem norm_truth (p : Prop) [Decidable p] : norm15 (truth (decide p)) = if p then 1 else 0 := by
  by_cases h : p
  · rw [if_pos h, decide_eq_true h]
    rfl
  · rw [if_neg h, decide_eq_false h]
    rfl

theorem valuesEqual_eq (x y : Value) : valuesEqual x y = decide (x.toNat = y.toNat) :=
  decide_eq_decide.mpr BitVec.toNat_inj.symm

theorem exec_eq_of_val {s : State} {b c : Operand} {x y : Value} (d : Reg) (hb : s.val b = some x)
    (hc : s.val c = some y) :
    exec (.eq (.reg d) b c) s = complete ((s.setReg d (truth (valuesEqual x y))).advance 3) :=
  writeD2_of_val d hb hc _

theorem exec_gt_of_val {s : State} {b c : Operand} {x y : Value} (d : Reg) (hb : s.val b = some x)
    (hc : s.val c = some y) :
    exec (.gt (.reg d) b c) s = complete ((s.setReg d (truth (valueGreater x y))).advance 3) :=
  writeD2_of_val d hb hc _

/-- Settles O17: both comparisons write a truth value, which the register write leaves as it is; `gt` compares the unsigned
numbers by definition, and `eq` does by `valuesEqual_eq`. -/
theorem comparisonsWriteOneOrZero : Obligations.ComparisonsWriteOneOrZero := by
  intro s d b c x y hb hc
  constructor
  · rw [exec_eq_of_val d hb hc, State.setReg, valuesEqual_eq, norm_truth]
    rfl
  · rw [exec_gt_of_val d hb hc, State.setReg, valueGreater, norm_truth]
    rfl

end Sys2Proof.Machine

namespace Sys2Proof.Machine

/-! ## Jumps (43_jumps.md) -/

theorem nonZero_iff {x : Value} : nonZero x = true ↔ x.toNat ≠ 0 :=
  decide_eq_true_iff.trans (BitVec.toNat_inj (y := 0#15)).not.symm

theorem exec_jmp_of_val {s : State} {a : Operand} {t : Value} (h : s.val a = some t) :
    exec (.jmp a) s = complete (s.jump t.toWord) := by
  simp only [exec, execJmp, withVal_of_val h]

theorem exec_jt_of_val {s : State} {a b : Operand} {x t : Value} (ha : s.val a = some x) (hb : s.val b = some t) :
    exec (.jt a b) s = complete (if x.toNat ≠ 0 then s.jump t.toWord else s.advance 2) := by
  simp only [exec, execJt, withVal_of_val ha, withVal_of_val hb, nonZero_iff]

theorem exec_jf_of_val {s : State} {a b : Operand} {x t : Value} (ha : s.val a = some x) (hb : s.val b = some t) :
    exec (.jf a b) s = complete (if x.toNat = 0 then s.jump t.toWord else s.advance 2) := by
  simp only [exec, execJf, withVal_of_val ha, withVal_of_val hb, nonZero_iff, ite_not]

/-- Settles O18: the target is the value zero-extended to a word. -/
theorem jmpGoesToItsTarget : Obligations.JmpGoesToItsTarget :=
  fun _ _ _ h => exec_jmp_of_val h

/-- Settles O19: both ways of each jump change pc alone, so the condition chooses between two values of pc. -/
theorem jtAndJfJumpOnNonZeroAndZero : Obligations.JtAndJfJumpOnNonZeroAndZero := by
  intro s a b x t ha hb
  rw [exec_jt_of_val ha hb, exec_jf_of_val ha hb]
  by_cases hx : x.toNat = 0
  · rw [if_neg (not_not.mpr hx), if_neg (not_not.mpr hx), if_pos hx, if_pos hx]
    exact ⟨rfl, rfl⟩
  · rw [if_pos hx, if_pos hx, if_neg hx, if_neg hx]
    exact ⟨rfl, rfl⟩

end Sys2Proof.Machine

namespace Sys2Proof.Machine

/-! ## Arithmetic (44_arithmetic.md) -/

/-- The register write reduces a number that was reduced before no further (44_arithmetic.md R174). -/
theorem norm_mod (n : Nat) : norm15 (n % 32768) = norm15 n := by rw [← norm_toNat, norm_value]

/-- A remainder of values is a value, so the register write leaves it as it is (44_arithmetic.md R172). -/
theorem norm_remainder (x y : Value) : norm15 (x.toNat % y.toNat) = x % y := by rw [← BitVec.toNat_umod, norm_value]

section
variable {s : State} {b c : Operand} {x y : Value} (d : Reg) (hb : s.val b = some x) (hc : s.val c = some y)
include hb hc

theorem exec_mult_of_val : exec (.mult (.reg d) b c) s = complete ((s.setReg d (x.toNat * y.toNat)).advance 3) :=
  writeD2_of_val d hb hc _

theorem exec_mod_of_val : exec (.mod (.reg d) b c) s =
    if y = 0 then raise .modByZero .nothing s else complete ((s.setReg d (x.toNat % y.toNat)).advance 3) := by
  simp only [exec, execMod, withDst_reg, withVal_of_val hb, withVal_of_val hc]

end

/-- Settles O20: the two instructions write the exact sum and product, and the register write reduces them. -/
theorem addAndMultWrapModulo32768 : Obligations.AddAndMultWrapModulo32768 := by
  intro s d b c x y hb hc
  constructor
  · rw [exec_add_of_val d hb hc, State.setReg, ← norm_mod]
    rfl
  · rw [exec_mult_of_val d hb hc, State.setReg, ← norm_mod]
    rfl

/-- Settles O21: the remainder is that of the values, which division with remainder determines; the zero divisor takes
the other branch. -/
theorem modIsTheRemainderOrFaults : Obligations.ModIsTheRemainderOrFaults := by
  intro s d b c x y hb hc
  have hzero : y = 0 ↔ y.toNat = 0 := BitVec.toNat_inj.symm
  rw [exec_mod_of_val d hb hc]
  refine ⟨fun hy => ⟨x % y, ?_, ?_, ?_⟩, fun hy => if_pos (hzero.mpr hy)⟩
  · rw [BitVec.toNat_umod]
    exact Nat.mod_lt _ (Nat.pos_of_ne_zero hy)
  · rw [BitVec.toNat_umod]
    exact (Nat.div_add_mod _ _).symm
  · rw [if_neg (hzero.not.mpr hy), State.setReg, norm_remainder]
    rfl

end Sys2Proof.Machine

namespace Sys2Proof.Machine

/-! ## Bitwise operations (45_bitwise.md) -/

/-- The complement of the 16-bit container, masked to 15 bits, is the complement of the value (45_bitwise.md R182). -/
theorem norm_complement (x : Value) : norm15 ((~~~x.toWord) &&& 0x7FFF#16).toNat = ~~~x := by
  have hmask : (0x7FFF#16).setWidth 15 = BitVec.allOnes 15 := rfl
  have hvalue : x.toWord.setWidth 15 = x := by rw [← norm_word, norm_toWord]
  rw [norm_word, BitVec.setWidth_and, hmask, BitVec.and_allOnes, BitVec.setWidth_not (by decide), hvalue]

section
variable {s : State} {b c : Operand} {x y : Value} (d : Reg) (hb : s.val b = some x)
include hb

theorem exec_not_of_val :
    exec (.not (.reg d) b) s = complete ((s.setReg d ((~~~x.toWord) &&& 0x7FFF#16).toNat).advance 2) := by
  simp only [exec, execNot, writeD1, withDst_reg, withVal_of_val hb]

variable (hc : s.val c = some y)
include hc

theorem exec_and_of_val : exec (.and (.reg d) b c) s = complete ((s.setReg d (x &&& y).toNat).advance 3) :=
  writeD2_of_val d hb hc _

theorem exec_or_of_val : exec (.or (.reg d) b c) s = complete ((s.setReg d (x ||| y).toNat).advance 3) :=
  writeD2_of_val d hb hc _

end

/-- Settles O22: the three results are the operations of the 15-bit values, which the library gives bit by bit; the
register write leaves them as they are. -/
theorem bitwiseOperationsActOnFifteenBits : Obligations.BitwiseOperationsActOnFifteenBits := by
  intro s d b c x y hb hc
  refine ⟨x &&& y, x ||| y, ~~~x, fun j hj => ⟨BitVec.getLsbD_and, BitVec.getLsbD_or, ?_⟩, BitVec.toNat_not, ?_, ?_, ?_⟩
  · rw [BitVec.getLsbD_not, decide_eq_true hj, Bool.true_and]
  · rw [exec_and_of_val d hb hc, State.setReg, norm_value]
    rfl
  · rw [exec_or_of_val d hb hc, State.setReg, norm_value]
    rfl
  · rw [exec_not_of_val d hb, State.setReg, norm_complement]
    rfl

end Sys2Proof.Machine

namespace Sys2Proof.Machine

/-! ## Memory access (46_memory_access.md)

What each instruction completes with is `exec_rmem_of_val` and `exec_wmem_of_val`. -/

/-- Settles O23: the register takes the low 15 bits of the word read, as it does of a word popped. -/
theorem rmemReadsTheAddressedCell : Obligations.RmemReadsTheAddressedCell := by
  intro s d b x hb
  rw [exec_rmem_of_val d hb, State.setReg, norm_word]
  rfl

/-- Settles O24: the new memory is that of the one store, whose cell, canonical form and frame are the laws of
`MemWrite`. -/
theorem wmemStoresInTheAddressedCell : Obligations.WmemStoresInTheAddressedCell := by
  intro s a b x y ha hb hwf
  obtain ⟨hcell, -, -, hframe, hwrite⟩ := memWriteStoresTheValueAndNothingElse s.mem x y hwf
  exact ⟨s.mem.write x y, exec_wmem_of_val ha hb, hcell, hwrite, hframe⟩

end Sys2Proof.Machine

namespace Sys2Proof.Machine

/-! ## Calls, returns, halt and noop (47_call_ret_halt_noop.md)

What each instruction completes with; `exec_halt` and `exec_ret_of_nil` stand with the stops. -/

theorem exec_call_of_val {s : State} {a : Operand} {t : Value} (h : s.val a = some t) :
    exec (.call a) s = complete (({ s with stack := (s.pc + 2) :: s.stack } : State).jump t.toWord) := by
  simp only [exec, execCall, withVal_of_val h, withPush_unbounded]

theorem exec_ret_of_cons {s : State} {w : Word} {rest : List Word} (h : s.stack = w :: rest) :
    exec .ret s = complete (({ s with stack := rest } : State).jump w) := by
  simp only [exec, execRet, State.popWord_cons h]

theorem exec_noop (s : State) : exec .noop s = complete (s.advance 0) := rfl

/-- Settles O25: the stack has no capacity to run into, so the call completes at every depth. -/
theorem callPushesTheReturnAddress : Obligations.CallPushesTheReturnAddress :=
  fun _ _ _ h => exec_call_of_val h

/-- Settles O26: the two cases of the stack. -/
theorem retJumpsOrEndsTheRun : Obligations.RetJumpsOrEndsTheRun :=
  ⟨fun _ _ _ h => exec_ret_of_cons h, fun _ h => exec_ret_of_nil h⟩

/-- Settles O28: an instruction without operands advances by its one word. -/
theorem noopDoesNothingElse : Obligations.NoopDoesNothingElse :=
  exec_noop

/-- Settles O54: the equal top word is the return address, which the `ret` pops; the words under it are as many as the
call found. -/
theorem retResumesAfterItsCall : Obligations.RetResumesAfterItsCall := by
  intro s t u a v ha hcall hlen htop
  obtain rfl : _ = t := Host.Outcome.next.inj ((exec_call_of_val ha).symm.trans hcall)
  obtain ⟨rest, hu⟩ : ∃ rest, u.stack = (s.pc + 2) :: rest := List.head?_eq_some_iff.mp htop
  have hrest : rest.length = s.stack.length := by
    rw [hu] at hlen
    exact Nat.succ.inj hlen
  refine ⟨_, exec_ret_of_cons hu, rfl, ?_, hrest, rfl⟩
  rw [hu]
  rfl

/-- A machine that runs below its ceiling and finds the word 0 at pc ends there (47_call_ret_halt_noop.md R202). -/
theorem step_of_halt_word {s : State} (hr : s.status = .running) (hw : s.watchdogDue = false)
    (h : s.mem.read s.pc.toNat = some 0) : step s = stop .byHalt s := by
  rw [step_of_fetch_ok hr hw (State.fetch_halt h), exec_halt]

/-- Before the first cycle only the ceiling 0 is due (40_execute_loop.md R111). -/
theorem State.watchdogDue_of_cycles_eq_zero {s : State} (hcycles : s.cycles = 0) (hc : s.ceiling ≠ some 0) :
    s.watchdogDue = false := by
  by_contra hdue
  obtain ⟨n, hn, hle⟩ := s.watchdogDue_iff.mp (eq_true_of_ne_false hdue)
  rw [hcycles, Nat.le_zero] at hle
  exact hc (hle ▸ hn)

theorem ended_of_exec_halt {s t : State} (h : exec .halt s = .next t) : t.ended := by
  rw [exec_halt] at h
  cases h
  nofun

/-- Settles O27: `exec_halt` is the stop, after which no step exists; the image 00 00 puts the word 0 at pc. -/
theorem haltEndsTheRun : Obligations.HaltEndsTheRun := by
  refine ⟨decodeWords_encode_append (i := .halt) rfl [], rfl, exec_halt,
    fun _ _ h => step_of_ended (ended_of_exec_halt h), fun c hc => ?_⟩
  have hboot : boot [0, 0] c = { State.reset with mem := Memory.ofBytes 0 [0, 0], ceiling := c } :=
    boot_of_ok (loadImage_ok rfl (by decide)) c
  have hword : (Memory.ofBytes 0 [0, 0]).read State.reset.pc.toNat = some 0 := by decide
  rw [hboot]
  exact step_of_halt_word rfl (State.watchdogDue_of_cycles_eq_zero rfl hc) hword

end Sys2Proof.Machine

namespace Sys2Proof.Machine

/-! ## The terminal (48_io.md)

An `in` that completes has one next state, `State.deliver`, whether its character was queued or came with a line; the
laws of a refill and of a whole line are read off it. -/

theorem exec_out_of_val {s : State} {a : Operand} {v : Value} (h : s.val a = some v) :
    exec (.out a) s = complete ((s.emit v).advance 1) := by
  simp only [exec, execOut, withVal_of_val h]

/-- Settles O29: the value is emitted, and nothing can keep the instruction from completing. -/
theorem outAppendsOneCharacter : Obligations.OutAppendsOneCharacter :=
  fun _ _ _ h => exec_out_of_val h

/-! ### One character (R211) -/

/-- The state after an `in` that delivers ch to register d and leaves q queued and `lines` ready. -/
def State.deliver (s : State) (d : Reg) (ch : Value) (q : List Value) (lines : List (List Value)) : State :=
  { s with regs := s.regs.set d ch, inq := q, hostLines := lines, pc := s.pc + 2, cycles := s.cycles + 1 }

section
variable {s : State} {ch : Value} {q line : List Value} {lines : List (List Value)} (d : Reg)

theorem State.reg_deliver : (s.deliver d ch q lines).reg d = ch := Regs.get_set_self _ _ _

theorem exec_inp_eq_deliver (h : s.nextChar = some (ch, { s with inq := q, hostLines := lines })) :
    exec (.inp (.reg d)) s = .next (s.deliver d ch q lines) := by
  rw [exec_inp_of_nextChar d h, State.setReg, norm_value]
  rfl

/-- A queued character is delivered without a look at the host's lines. -/
theorem exec_inp_of_queued (h : s.inq = ch :: q) :
    exec (.inp (.reg d)) s = .next (s.deliver d ch q s.hostLines) :=
  exec_inp_eq_deliver d (State.nextChar_cons h)

/-- With nothing queued, the first character of the next line and its newline is delivered. -/
theorem exec_inp_of_line (h : s.inq = []) (h' : s.hostLines = line :: lines)
    (hline : line ++ [Config.newline] = ch :: q) : exec (.inp (.reg d)) s = .next (s.deliver d ch q lines) := by
  refine exec_inp_eq_deliver d ?_
  cases line with
  | nil =>
    cases hline
    exact State.nextChar_refill_nil h h'
  | cons c cs =>
    cases hline
    exact State.nextChar_refill_cons h h'

theorem exec_inp_of_nothing (h : s.inq = []) (h' : s.hostLines = []) : exec (.inp (.reg d)) s = .fault .stalled :=
  exec_of_waitsIn ⟨⟨d, rfl⟩, h, h'⟩

end

/-- Settles O30: the character is queued, comes with a line, or is not there. -/
theorem inDeliversTheNextCharacterOrStalls : Obligations.InDeliversTheNextCharacterOrStalls :=
  fun _ d => ⟨fun _ _ h => exec_inp_of_queued d h, fun _ _ _ _ h h' hline => exec_inp_of_line d h h' hline,
    fun h h' => exec_inp_of_nothing d h h'⟩

/-! ### One line (R213) -/

/-- The newline gives every line, the empty one too, a first character. -/
theorem exists_line_newline_eq_cons (line : List Value) : ∃ ch q, line ++ [Config.newline] = ch :: q :=
  List.exists_cons_of_ne_nil (List.concat_ne_nil _ _)

/-- No instruction but `in` touches the queue or the host's lines. -/
theorem Ending.input_cases {i : Instr} {s t : State} (e : Ending i s t) :
    (t.inq = s.inq ∧ t.hostLines = s.hostLines) ∨ ∃ d, i = .inp (.reg d) := by
  cases e with
  | faulted k info => exact .inl ⟨rfl, rfl⟩
  | halted why _ => exact .inl ⟨rfl, rfl⟩
  | completed e => exact e.input

/-- Settles O31: only an `in` takes lines, and not with a character queued; with none queued, the line it takes is what
it delivers and what it queues. -/
theorem refillTakesExactlyOneLine : Obligations.RefillTakesExactlyOneLine := by
  refine ⟨fun i s t h hno => ?_, fun s t d line lines hq hl h => ?_⟩
  · rcases (ending_of_exec h).input_cases with ⟨-, hlines⟩ | ⟨d, rfl⟩
    · exact hlines
    · have hqueued : s.inq ≠ [] := hno.resolve_right fun hin => hin _ rfl
      obtain ⟨ch, q, hq⟩ := List.exists_cons_of_ne_nil hqueued
      rw [exec_inp_of_queued d hq] at h
      cases h
      rfl
  · obtain ⟨ch, q, hline⟩ := exists_line_newline_eq_cons line
    rw [exec_inp_of_line d hq hl hline] at h
    cases h
    rw [State.reg_deliver, hline]
    refine ⟨rfl, rfl, fun hempty => ?_⟩
    subst hempty
    cases hline
    exact ⟨rfl, rfl⟩

/-- As many `in` as there are characters queued deliver the queue in its order and take no line. -/
theorem receive_queue (d : Reg) {s : State} {q : List Value} (h : s.inq = q) :
    ∃ t, receive d q.length s = some (q, t) ∧ t.inq = [] ∧ t.hostLines = s.hostLines ∧
      t.cycles = s.cycles + q.length := by
  induction q generalizing s with
  | nil => exact ⟨s, rfl, h, rfl, rfl⟩
  | cons ch q ih =>
    obtain ⟨t, ht, hq, hl, hc⟩ := ih (s := s.deliver d ch q s.hostLines) rfl
    refine ⟨t, ?_, hq, hl, ?_⟩
    · rw [List.length_cons, receive_succ_of_next (exec_inp_of_queued d h), ht, State.reg_deliver]
      rfl
    · rw [hc, State.deliver, List.length_cons, Nat.add_assoc, Nat.add_comm 1]

/-- Settles O56: the first `in` takes the line and queues its rest, `receive_queue` delivers that, and then there is
nothing left. -/
theorem aLineIsDeliveredInOrder : Obligations.ALineIsDeliveredInOrder := by
  intro s d line hq hl
  obtain ⟨ch, q, hline⟩ := exists_line_newline_eq_cons line
  have hlen : line.length = q.length := by simpa using congrArg List.length hline
  obtain ⟨t, ht, htq, htl, hc⟩ := receive_queue d (s := s.deliver d ch q []) (q := q) rfl
  refine ⟨t, ?_, htq, htl, ?_, exec_inp_of_nothing d htq htl⟩
  · rw [hline, hlen, receive_succ_of_next (exec_inp_of_line d hq hl hline), ht, State.reg_deliver]
    rfl
  · rw [hc, hlen, State.deliver, Nat.add_assoc, Nat.add_comm 1]

end Sys2Proof.Machine

namespace Sys2Proof.Machine

/-! ## Exceptions (60_exceptions.md) -/

/-! ### Where a fault can come from (R221) -/

/-- The two faults an instruction can end in once its operands are classified. -/
inductive ExecutionFault (i : Instr) (s : State) : State → Prop where
  | popOnEmptyStack (d : Reg) (hi : i = .pop (.reg d)) (hs : s.stack = []) :
      ExecutionFault i s (s.raise .stackUnderflow .nothing)
  | modByZero (d : Reg) (b c : Operand) (hi : i = .mod (.reg d) b c) (hc : s.val c = some 0) :
      ExecutionFault i s (s.raise .modByZero .nothing)

/-- Where the operands ops still to be classified fit their roles, the result r is Faulted only by an execution fault of
i in the state s. -/
def FaultsOnlyInExecution (i : Instr) (s : State) (ops : List (Role × Operand)) (r : Result) : Prop :=
  (∀ p ∈ ops, p.1.accepts p.2 = true) → ∀ t, r = .next t → t.status = .faulted → ExecutionFault i s t

section
variable {i : Instr} {s : State} {k : Nat} {w : Operand} {ops : List (Role × Operand)}

theorem FaultsOnlyInExecution.withVal {f : Value → Result}
    (h : ∀ v, s.val w = some v → FaultsOnlyInExecution i s ops (f v)) :
    FaultsOnlyInExecution i s ((.value, w) :: ops) (withVal k w s f) := by
  intro hfit
  obtain ⟨hw, hops⟩ := List.forall_mem_cons.mp hfit
  cases w with
  | lit v => exact h v rfl hops
  | reg q => exact h (s.reg q) rfl hops
  | invalid x => cases hw

theorem FaultsOnlyInExecution.withDst {f : Reg → Result}
    (h : ∀ d, w = .reg d → FaultsOnlyInExecution i s ops (f d)) :
    FaultsOnlyInExecution i s ((.dest, w) :: ops) (withDst k w s f) := by
  intro hfit
  obtain ⟨hw, hops⟩ := List.forall_mem_cons.mp hfit
  cases w with
  | reg d => exact h d rfl hops
  | lit v => cases hw
  | invalid x => cases hw

theorem FaultsOnlyInExecution.raise {kind : FaultKind} {info : FaultInfo}
    (h : ExecutionFault i s (s.raise kind info)) : FaultsOnlyInExecution i s [] (raise kind info s) := by
  rintro - t ⟨⟩ -
  exact h

theorem FaultsOnlyInExecution.complete {u : State} (hr : u.status = .running) :
    FaultsOnlyInExecution i s [] (complete u) := by
  rintro - t ⟨⟩ ht
  cases hr.symm.trans ht

theorem FaultsOnlyInExecution.stop (why : HaltReason) : FaultsOnlyInExecution i s [] (stop why s) := by
  rintro - t ⟨⟩ ⟨⟩

theorem FaultsOnlyInExecution.stall : FaultsOnlyInExecution i s [] stall := nofun

end

/-- Past classification only `pop` and `mod` have a branch that faults. -/
theorem exec_faultsOnlyInExecution (i : Instr) {s : State} (hr : s.status = .running) :
    FaultsOnlyInExecution i s i.operands (exec i s) := by
  cases i with
  | halt => exact .stop _
  | noop => exact .complete hr
  | push a | jmp a | call a | out a => exact .withVal fun _ _ => .complete hr
  | wmem a b => exact .withVal fun _ _ => .withVal fun _ _ => .complete hr
  | jt a b | jf a b =>
    refine .withVal fun x _ => .withVal fun t _ => ?_
    cases nonZero x <;> exact .complete hr
  | set a b | not a b => exact .withDst fun _ _ => .withVal fun _ _ => .complete hr
  | eq a b c | gt a b c | add a b c | mult a b c | and a b c | or a b c =>
    exact .withDst fun _ _ => .withVal fun _ _ => .withVal fun _ _ => .complete hr
  | rmem a b =>
    refine .withDst fun d _ => .withVal fun x _ => ?_
    rw [Memory.read_value]
    exact .complete hr
  | mod a b c =>
    refine .withDst fun d hd => .withVal fun x _ => .withVal fun y hy => ?_
    split
    · next hzero => exact .raise (.modByZero d b c (by rw [hd]) (by rw [hy, hzero]))
    · exact .complete hr
  | pop a =>
    refine .withDst fun d hd => ?_
    rcases s.popWord_cases with ⟨hs, h⟩ | ⟨w, rest, -, h⟩ <;> rw [h]
    · exact .raise (.popOnEmptyStack d (by rw [hd]) hs)
    · exact .complete hr
  | inp a =>
    refine .withDst fun d _ => ?_
    rcases s.nextChar_cases with ⟨-, -, h⟩ | ⟨ch, q, ls, h⟩ <;> rw [h]
    · exact .stall
    · exact .complete hr
  | ret =>
    change FaultsOnlyInExecution .ret s [] (execRet s)
    unfold execRet
    rcases s.popWord_cases with ⟨-, h⟩ | ⟨w, rest, -, h⟩ <;> rw [h]
    · exact .stop _
    · exact .complete hr

/-- Settles O39: in a well-formed instruction every operand fits, so `exec_faultsOnlyInExecution` leaves its two
faults. -/
theorem onlyPopAndModFaultInExecution : Obligations.OnlyPopAndModFaultInExecution := by
  intro i s t hwf hr h ht
  have hfit : ∀ p ∈ i.operands, p.1.accepts p.2 = true := List.all_eq_true.mp hwf
  cases exec_faultsOnlyInExecution i hr hfit t h ht with
  | popOnEmptyStack d hi hs => exact .inl ⟨d, hi, hs, rfl⟩
  | modByZero d b c hi hc => exact .inr ⟨d, b, c, hi, hc, rfl⟩

/-! ### What a fault leaves (R234, D11, D12) -/

/-- Of the endings of a running machine's instruction, only the fault is Faulted. -/
theorem Ending.eq_raise {i : Instr} {s t : State} (e : Ending i s t) (hr : s.status = .running)
    (ht : t.status = .faulted) : ∃ kind info, t = s.raise kind info := by
  cases e with
  | faulted kind info => exact ⟨kind, info, rfl⟩
  | halted why _ => cases ht
  | completed e => cases hr.symm.trans (e.status.symm.trans ht)

/-- Settles O40: whichever phase of the step faults, its next state is that of `raise`. -/
theorem faultEntryChangesOnlyStatusAndRecord : Obligations.FaultEntryChangesOnlyStatusAndRecord := by
  intro s t hst ht
  obtain ⟨hr, ⟨-, rfl⟩ | ⟨-, ⟨e, -, kind, info, -, rfl⟩ | ⟨i, -, -, he⟩⟩⟩ := step_cases hst
  · cases ht
  · exact ⟨kind, info, rfl⟩
  · exact he.eq_raise hr ht

/-! ### The push and its capacity (R229) -/

theorem withPush_of_full {s : State} {n : Nat} (h : n ≤ s.stack.length) (w : Word) (k : State → Result) :
    withPush (some n) w s k = raise .stackOverflow .nothing s := if_pos (decide_eq_true h)

theorem withPush_of_room {s : State} {n : Nat} (h : s.stack.length < n) (w : Word) (k : State → Result) :
    withPush (some n) w s k = k { s with stack := w :: s.stack } :=
  if_neg fun hfull => Nat.not_le_of_lt h (of_decide_eq_true hfull)

/-- Settles O57: the two sides of a capacity, and the hardware that has none (D14, log 7). -/
theorem aFullStackOverflowsOnlyWithACapacity : Obligations.AFullStackOverflowsOnlyWithACapacity :=
  fun w s k => ⟨fun _ h => withPush_of_full h w k, fun _ h => withPush_of_room h w k, withPush_unbounded w s k⟩

end Sys2Proof.Machine

namespace Sys2Proof.Machine

/-! ## The loader and reset (70_reset_and_hazards.md) -/

/-! ### The memory of an accepted image (R261, R262) -/

theorem boot_of_accepted {image : List Byte} (h : image.length % 2 = 0) (h' : image.length ≤ 65536) (c : Option Nat) :
    boot image c = { State.reset with mem := Memory.ofBytes 0 image, ceiling := c } :=
  boot_of_ok (loadImage_ok h h') c

/-- A cell of the loaded memory is made of the two image bytes at its place, or of the padding's. -/
theorem Memory.readWord_ofBytes (image : List Byte) (a : Nat) : (Memory.ofBytes 0 image).readWord a =
    image[2 * a + 1]?.getD (Memory.unlisted (2 * a + 1)) ++ image[2 * a]?.getD (Memory.unlisted (2 * a)) := by
  rw [Memory.readWord, Memory.readByte_ofBytes 0 image (Nat.zero_le _), Memory.readByte_ofBytes 0 image (Nat.zero_le _),
    Nat.sub_zero, Nat.sub_zero]

/-- The low byte of a word comes first and counts once, the high byte 256 times (70_reset_and_hazards.md R261). -/
theorem toNat_append_bytes (hi lo : Byte) : (hi ++ lo).toNat = lo.toNat + 256 * hi.toNat := by
  rw [BitVec.toNat_append, ← Nat.shiftLeft_add_eq_or_of_lt lo.isLt, Nat.shiftLeft_eq]
  omega

/-- Settles O58: the cell at i is made of the two bytes, and no later byte of the image reaches it. -/
theorem loadedWordsAreTheImageBytes : Obligations.LoadedWordsAreTheImageBytes := by
  refine fun image c h h' => ⟨length_wordsOfBytes image, fun i lo hi hlo hhi => ?_⟩
  rw [boot_of_accepted h h' c, Memory.readWord_ofBytes, hlo, hhi]
  exact toNat_append_bytes hi lo

/-- A cell that no byte is listed for holds the padding word (70_reset_and_hazards.md R262; D1, log 10). -/
theorem unlisted_append_unlisted (a : Nat) : (Memory.unlisted (2 * a + 1) ++ Memory.unlisted (2 * a) : Word) = 21 := by
  have hhigh : Memory.unlisted (2 * a + 1) = 0 := if_neg (by omega)
  have hlow : Memory.unlisted (2 * a) = 21 := if_pos (by omega)
  rw [hhigh, hlow]
  rfl

/-- Settles O59: a cell past the image finds none of its bytes there; the other fields are those of `State.reset`. -/
theorem anAcceptedImageIsPaddedAndRuns : Obligations.AnAcceptedImageIsPaddedAndRuns := by
  intro image c h h'
  rw [boot_of_accepted h h' c]
  refine ⟨fun a ha _ => ?_, rfl⟩
  rw [Memory.readWord_ofBytes, List.getElem?_eq_none ha, List.getElem?_eq_none (Nat.le_succ_of_le ha)]
  exact unlisted_append_unlisted a

/-! ### A refused image (R263) -/

theorem ImageError.kind_eq (why : ImageError) : why.kind = .invalidImageError := by cases why <;> rfl

/-- Settles O60: a refused image leaves its reason in the status, which is not Running. -/
theorem aBadImageIsRefused : Obligations.ABadImageIsRefused := by
  intro image c hbad
  rcases boot_cases image c with ⟨h, h', -⟩ | ⟨why, hwhy, hboot⟩
  · omega
  · have hstatus : (boot image c).status = .loadFailed why := by rw [hboot]
    have hended : (boot image c).ended := by rw [State.ended, hstatus]; nofun
    obtain ⟨hodd, hlong⟩ := imageError_eq_some hwhy
    exact ⟨why, hstatus, by rw [hstatus]; rfl, why.kind_eq, by rw [why.kind_eq]; rfl, step_of_ended hended, hodd,
      hlong⟩

end Sys2Proof.Machine
